-- ==== Sys2Proof/Word.lean ====
section
/-! DEFINITION. The byte, the opcode identifier and the operand width (spec/00_scope.md R8). -/

namespace Sys2Proof

/-- A byte: an unsigned 8-bit value (R8). -/
abbrev Byte := BitVec 8

/-- An opcode identifier, a u16 (00_scope.md glossary, 10_state.md R30). -/
abbrev OpcodeId := BitVec 16

/-- An operand width of the add family (R2, R8). -/
inductive Width where
  /-- one byte, a u8 -/
  | w8
  /-- two bytes, a u16 -/
  | w16
  /-- four bytes, a u32 -/
  | w32
  deriving DecidableEq, Repr

/-- The width in bytes, the spec's `w` (00_scope.md glossary). -/
def Width.bytes : Width → Nat
  | .w8 => 1
  | .w16 => 2
  | .w32 => 4

/-- The spec's `MAX_w`, the largest value of the width (00_scope.md glossary). -/
def Width.maxValue (w : Width) : Nat := 256 ^ w.bytes - 1

end Sys2Proof
end

