-- ==== Sys2Proof/Errors.lean ====
section
/-! DEFINITION. The four typed errors (spec/60_exceptions.md R120 to R124). -/

namespace Sys2Proof

/-- An error a request returns to the host, with the payload of R120 (payload types: 92 D9). There is no fifth kind. -/
inductive Error where
  /-- a pop asked for more bytes than are present (R121) -/
  | stackUnderflow (attempted remaining : Nat)
  /-- fewer bytes than the opcode field or the instruction needs (R122); the opcode is `none` where none was read -/
  | instructionTooShort (rawOpcode : Option OpcodeId) (min actual : Nat)
  /-- the identifier has no entry in the opcode table (R123) -/
  | unknownOpcode (rawOpcode : OpcodeId)
  /-- the sum does not fit the operand width (R124) -/
  | arithmeticOverflow (addend1 addend2 : Nat)
  deriving DecidableEq, Repr

end Sys2Proof
end

