-- ==== Sys2Proof/Machine/Bytes.lean ====
section
/-! DEFINITION. Byte sequences: slices and the big-endian order (spec/00_scope.md R8, R9, spec/20_memory.md R40). -/

namespace Sys2Proof.Machine

/-- `s[i..j]`: bytes `i` up to but not including `j` (R8). -/
def slice (s : List Byte) (i j : Nat) : List Byte := (s.take j).drop i

/-- `be(s)`: the value of a byte sequence read most-significant byte first (R9). -/
def be : List Byte → Nat
  | [] => 0
  | b :: rest => b.toNat * 256 ^ rest.length + be rest

/-- `bytes_be_n(v)`: the `n` bytes of `v`, most-significant byte first (R9). -/
def bytesBe : Nat → Nat → List Byte
  | 0, _ => []
  | n + 1, v => BitVec.ofNat 8 (v / 256 ^ n) :: bytesBe n v

end Sys2Proof.Machine
end

