-- ==== Sys2Proof/Config.lean ====
section
/-! DEFINITION. The implementation parameters of spec/00_scope.md R7 and the descriptor of the opcode table
(spec/10_state.md R30). The values this hardware takes stand in Sys2Proof/Machine/Hardware.lean. -/

namespace Sys2Proof

/-- The parameters of R7 that have no fixed value. `OPC_ADD8`, `OPCODE_BYTES` and `MIN_LEN` are fixed and stand in
Sys2Proof/Machine/Hardware.lean and Sys2Proof/Decode.lean. The block never writes one (10_state.md R23). -/
structure Config where
  /-- `WIDTHS`: the operand widths present (R7, 92 D4). -/
  widths : List Width
  /-- `OPC_ADD16` (R7, R66, 92 D2). -/
  opcAdd16 : OpcodeId
  /-- `OPC_ADD32` (R7, R66, 92 D3). -/
  opcAdd32 : OpcodeId
  /-- `STACK_CAPACITY`: `none` is unbounded (R7, 92 D5). -/
  stackCapacity : Option Nat
  /-- `N_CONTEXTS`: how many contexts may exist at once, `none` for no bound (R7, 60_exceptions.md R134, 92 D23).
  DESIGN CHOICE, safe: log 5. -/
  nContexts : Option Nat
  deriving DecidableEq, Repr

/-- The ALU operation a descriptor declares: ADD is the only one (41_add.md R100). -/
inductive AluOp where
  /-- unsigned add, overflow checked -/
  | add
  deriving DecidableEq, Repr

/-- One entry of the opcode table, with the fields of 10_state.md R30. -/
structure Descriptor where
  /-- the identifier, a u16 -/
  id : OpcodeId
  /-- the mnemonic, spelt as in 92 D18 -/
  mnemonic : String
  /-- total instruction length in bytes, opcode field and operands -/
  minimumLength : Nat
  /-- the operand width `w` -/
  operandWidth : Width
  /-- the operation -/
  operation : AluOp
  deriving DecidableEq, Repr

end Sys2Proof
end

