-- ==== Sys2Proof/Syntax.lean ====
section
/-! DEFINITION. The instructions: one constructor per row of spec/opcode_table.json. -/

namespace Sys2Proof

/-- A decoded instruction with its two immediates, `addend1` and `addend2` of 30_encoding.md R61. Every value of
every operand is legal (R67). -/
inductive Instr where
  /-- `ADD8 a, b` (41_add.md R105) -/
  | add8 (a b : BitVec 8)
  /-- `ADD16 a, b` (41_add.md R106) -/
  | add16 (a b : BitVec 16)
  /-- `ADD32 a, b` (41_add.md R107) -/
  | add32 (a b : BitVec 32)
  deriving DecidableEq, Repr

end Sys2Proof
end

