-- ==== Sys2Proof/WellFormed.lean ====
section
/-! DEFINITION. Which instructions a configuration has, and which configurations a model must refuse. -/

namespace Sys2Proof

/-- The operand width of an instruction (41_add.md R105 to R107). -/
def Instr.width : Instr → Width
  | .add8 _ _ => .w8
  | .add16 _ _ => .w16
  | .add32 _ _ => .w32

/-- The instruction is present: its width is in `WIDTHS` (10_state.md R30). Operand values need no check
(30_encoding.md R67). -/
def Instr.wellFormed (cfg : Config) (i : Instr) : Bool := cfg.widths.contains i.width

/-- The constraint of R7 on `WIDTHS`: a set that contains 1. -/
def Config.widthsOk (cfg : Config) : Bool := cfg.widths.contains .w8 && decide cfg.widths.Nodup

/-- R7: all three identifiers are distinct; `opcAdd8` is the first argument. -/
def Config.opcodesOk (opcAdd8 : OpcodeId) (cfg : Config) : Bool :=
  (opcAdd8 != cfg.opcAdd16) && (opcAdd8 != cfg.opcAdd32) && (cfg.opcAdd16 != cfg.opcAdd32)

/-- R7: `N_CONTEXTS` is at least 1. -/
def Config.contextsOk (cfg : Config) : Bool := cfg.nContexts != some 0

end Sys2Proof
end

