-- ==== Sys2Proof/Machine/Hardware.lean ====
section
/-! DEFINITION. The values of the parameters of spec/00_scope.md R7 on this hardware. -/

namespace Sys2Proof.Machine

/-- `OPCODE_BYTES` (R7). -/
def opcodeBytes : Nat := 2

/-- `OPC_ADD8`, the one identifier the source states (R7, 30_encoding.md R66). -/
def opcAdd8 : OpcodeId := 0x0000

/-- `MIN_LEN(w) = 2 + 2*w` (R7). -/
def minLen (w : Width) : Nat := opcodeBytes + 2 * w.bytes

/-- The default of every parameter (R7). The identifiers of ADD16 and ADD32 and their presence are the spec's
defaults 92 D2, D3, D4. PRESUMED, unsafe: log 2, 3. No bound on the contexts: DESIGN CHOICE, log 5. -/
def hardwareConfig : Config where
  widths := [.w8, .w16, .w32]
  opcAdd16 := 0x0001
  opcAdd32 := 0x0002
  stackCapacity := none
  nContexts := none

/-- A configuration the model takes: the checks of R7. -/
def configOk (cfg : Config) : Bool := cfg.widthsOk && cfg.opcodesOk opcAdd8 && cfg.contextsOk

end Sys2Proof.Machine
end

