-- ==== Sys2Proof/Machine/Operands.lean ====
section
/-! DEFINITION. The fields of an instruction's byte sequence (spec/30_encoding.md R61, R63, R67). The add family has
one operand form, the immediate: no instruction names a register or pops an operand (spec/10_state.md R20,
spec/41_add.md R109). -/

namespace Sys2Proof.Machine

/-- The opcode identifier `be(B[0..2])` (R63). -/
def opcodeField (bytes : List Byte) : OpcodeId := BitVec.ofNat 16 (be (slice bytes 0 opcodeBytes))

/-- `addend1 = be(B[2 .. 2+w])` (R67). -/
def addend1Field (w : Width) (bytes : List Byte) : Nat :=
  be (slice bytes opcodeBytes (opcodeBytes + w.bytes))

/-- `addend2 = be(B[2+w .. 2+2*w])` (R67). -/
def addend2Field (w : Width) (bytes : List Byte) : Nat :=
  be (slice bytes (opcodeBytes + w.bytes) (opcodeBytes + 2 * w.bytes))

/-- The layout of R61: opcode, then the two operands, each field big-endian. -/
def layFields (id : OpcodeId) (w : Width) (a b : Nat) : List Byte :=
  bytesBe opcodeBytes id.toNat ++ bytesBe w.bytes a ++ bytesBe w.bytes b

end Sys2Proof.Machine
end

