-- ==== Sys2Proof/Decode.lean ====
section
/-! DEFINITION. The opcode table, the decode half of `execute` and the encoder (spec/10_state.md R29, R30,
spec/30_encoding.md R60 to R73). -/

namespace Sys2Proof

open Machine

/-- The row of the table of 10_state.md R30 for one width. -/
def descriptorOf (cfg : Config) : Width → Descriptor
  | .w8 => ⟨opcAdd8, "ADD8", minLen .w8, .w8, .add⟩
  | .w16 => ⟨cfg.opcAdd16, "ADD16", minLen .w16, .w16, .add⟩
  | .w32 => ⟨cfg.opcAdd32, "ADD32", minLen .w32, .w32, .add⟩

/-- The opcode table: exactly one descriptor for each width in `WIDTHS` (10_state.md R30). -/
def opcodeTable (cfg : Config) : List Descriptor := cfg.widths.map (descriptorOf cfg)

/-- The table is consulted by identifier only (10_state.md R29). -/
def lookup (cfg : Config) (id : OpcodeId) : Option Descriptor := (opcodeTable cfg).find? (·.id == id)

/-- The instruction a descriptor and its operands make (30_encoding.md R67). -/
def instrOf : AluOp → Width → Nat → Nat → Instr
  | .add, .w8, a, b => .add8 (BitVec.ofNat 8 a) (BitVec.ofNat 8 b)
  | .add, .w16, a, b => .add16 (BitVec.ofNat 16 a) (BitVec.ofNat 16 b)
  | .add, .w32, a, b => .add32 (BitVec.ofNat 32 a) (BitVec.ofNat 32 b)

/-- The decode pipeline, its checks in the order of 60_exceptions.md R130: R62, then R64, then R65, then the operands
of R67. Total (R71); bytes from `minimum_length` on are not read (R68). -/
def decode (cfg : Config) (bytes : List Byte) : Except Error Instr :=
  if bytes.length < opcodeBytes then
    .error (.instructionTooShort none opcodeBytes bytes.length)
  else
    match lookup cfg (opcodeField bytes) with
    | none => .error (.unknownOpcode (opcodeField bytes))
    | some d =>
      if bytes.length < d.minimumLength then
        .error (.instructionTooShort (some (opcodeField bytes)) d.minimumLength bytes.length)
      else
        .ok (instrOf d.operation d.operandWidth
          (addend1Field d.operandWidth bytes) (addend2Field d.operandWidth bytes))

/-- The bytes of an instruction, by the formats of 30_encoding.md R61 (R73: opcode, `a`, `b`). -/
def encode (cfg : Config) : Instr → List Byte
  | .add8 a b => layFields opcAdd8 .w8 a.toNat b.toNat
  | .add16 a b => layFields cfg.opcAdd16 .w16 a.toNat b.toNat
  | .add32 a b => layFields cfg.opcAdd32 .w32 a.toNat b.toNat

/-- The window a realization needs: decode reads at most 10 bytes (30_encoding.md R72). -/
def windowBytes : Nat := 10

/-- The low 16-bit words of a number, the lowest word first, each stored most-significant byte first. -/
def tableWords : Nat → Nat → List Byte
  | 0, _ => []
  | n + 1, w => bytesBe 2 (w % 65536) ++ tableWords n (w / 65536)

/-- The bytes of a word of spec/opcode_table.json, whose "fixed" entry puts the opcode identifier in bits 15..0: the
word is numbered in 16-bit units, the first unit in bits 15..0, each unit big-endian in memory. Bits from `nbits` on
are 0, up to the longest instruction. DEDUCED, safe: log 16. -/
def tableBytes (nbits w : Nat) : List Byte := tableWords 5 (w % 2 ^ nbits)

/-- What the decoder, at the hardware's configuration, reads from a table word. -/
def decodeTableWord (nbits w : Nat) : Option Instr :=
  match decode hardwareConfig (tableBytes nbits w) with
  | .ok i => some i
  | .error _ => none

end Sys2Proof
end

