-- ==== Sys2Proof/Machine/Flags.lean ====
section
/-! DEFINITION. The block has no flags (spec/10_state.md R22). What stands here is the one condition the ALU computes
beside its sum, the overflow of spec/41_add.md R102. -/

namespace Sys2Proof.Machine

/-- The exact sum passes the width: `s > MAX_w` (R102). -/
def overflows (w : Width) (s : Nat) : Bool := decide (w.maxValue < s)

end Sys2Proof.Machine
end

