-- ==== Sys2Proof/Machine/State.lean ====
section
/-! DEFINITION. The state of the block, the host's moves and the values it gets back (spec/10_state.md,
spec/60_exceptions.md R135). -/

namespace Sys2Proof.Machine

/-- The operand stack, bottom first: the last byte is the top (00_scope.md R10, 10_state.md R24). -/
abbrev Stack := List Byte

/-- An execution context that has begun (10_state.md R28, 60_exceptions.md R134). -/
inductive Context where
  /-- the context exists and owns this stack -/
  | live (stack : Stack)
  /-- the context has ended and its stack is destroyed (70_reset_and_hazards.md R143) -/
  | ended
  deriving DecidableEq, Repr

/-- The Execution Delta (10_state.md R32). -/
structure Delta where
  /-- `inst_bytes_consumed` -/
  instBytesConsumed : Nat
  /-- `data_bytes_pushed` -/
  dataBytesPushed : Nat
  deriving DecidableEq, Repr

/-- A request of a context's host (60_exceptions.md R135). -/
inductive Request where
  /-- `new()` (40_operand_stack.md R80) -/
  | new
  /-- `len()` (R81) -/
  | len
  /-- `push8(b)` (R82) -/
  | push8 (b : BitVec 8)
  /-- `pop8()` (R83) -/
  | pop8
  /-- `push16(v)` (R84) -/
  | push16 (v : BitVec 16)
  /-- `pop16()` (R85) -/
  | pop16
  /-- `push32(v)` (R86) -/
  | push32 (v : BitVec 32)
  /-- `pop32()` (R87) -/
  | pop32
  /-- `execute(B)` (41_add.md) on the remaining undecoded instruction bytes -/
  | execute (bytes : List Byte)
  deriving DecidableEq, Repr

/-- What the outside world can do to the block. A context is named by its place in `State.contexts`
(DESIGN CHOICE, safe: log 6). -/
inductive HostMove where
  /-- a request of the context `c` (60_exceptions.md R135) -/
  | request (c : Nat) (r : Request)
  /-- the context `c` ends (70_reset_and_hazards.md R143) -/
  | endContext (c : Nat)
  /-- the block is reset (70_reset_and_hazards.md R140) -/
  | reset
  deriving DecidableEq, Repr

/-- What a request that succeeds returns (60_exceptions.md R135). -/
inductive Value where
  /-- of `new()`: a fresh empty stack -/
  | newStack
  /-- of `len()`: a natural number of bytes (92 D22) -/
  | length (n : Nat)
  /-- of a push: nothing -/
  | pushed
  /-- of `pop8()` -/
  | popped8 (v : BitVec 8)
  /-- of `pop16()` -/
  | popped16 (v : BitVec 16)
  /-- of `pop32()` -/
  | popped32 (v : BitVec 32)
  /-- of `execute(B)` -/
  | delta (d : Delta)
  deriving DecidableEq, Repr

/-- What the host of a context gets back: a value, or one of the four errors (60_exceptions.md R126). -/
inductive Reply where
  /-- the request succeeded -/
  | value (v : Value)
  /-- the request failed -/
  | error (e : Error)
  deriving DecidableEq, Repr

/-- The state. `contexts` and `capacityFault` are the block's. `config` is a constant of the machine that no transition
changes (10_state.md R23; DESIGN CHOICE, safe: log 1). `pending`, `replies` and `active` are the model's own ends of the
host interface (log 8, 9, 10). The block has no register, program counter, flag, control register, mode or memory
(10_state.md R20 to R23, R31, 60_exceptions.md R127, R131, R132, R133). -/
structure State where
  /-- the implementation parameters (00_scope.md R7) -/
  config : Config
  /-- the contexts that have begun, each with its operand stack (10_state.md R24, R27) -/
  contexts : List Context
  /-- the sticky model-level mark of a finite capacity (10_state.md R33) -/
  capacityFault : Bool
  /-- the host's moves not served yet, the next one first (20_memory.md R49) -/
  pending : List HostMove
  /-- what the hosts got back so far, with its context, the newest first; no transition reads it -/
  replies : List (Nat × Reply)
  /-- the context whose request is being served -/
  active : Nat
  deriving DecidableEq, Repr

/-- Why the machine stops. The spec's four errors are NOT here: they are values returned in a next state
(60_exceptions.md R126, R128). -/
inductive Fault where
  /-- Raised by a move of a context that has ended: "a destroyed context has no step" (70_reset_and_hazards.md R143,
  92 D25). Safe: the machine stops where the spec gives nothing. -/
  | contextEnded (c : Nat)
  deriving DecidableEq, Repr

/-- What the model gives no meaning. -/
inductive Refusal where
  /-- Raised by an instruction without a meaning; no instruction is. Safe. -/
  | notModelled (mnemonic : String)
  /-- Raised by every step of a configuration that R7 says a model must refuse. Safe. -/
  | badConfiguration
  /-- Raised by a move of a context that never began: its stack is created by `new()` before its first request
  (70_reset_and_hazards.md R142). Safe. -/
  | noSuchContext (c : Nat)
  /-- Raised by a `new()` that would make more contexts than `N_CONTEXTS` exist (00_scope.md R7). Safe. -/
  | tooManyContexts
  deriving DecidableEq, Repr

/-- The machine right after reset (10_state.md R34, 70_reset_and_hazards.md R140): the stack empty, `capacity_fault`
clear. That one context has begun is a DESIGN CHOICE, unsafe: log 5. -/
def State.reset : State where
  config := hardwareConfig
  contexts := [.live []]
  capacityFault := false
  pending := []
  replies := []
  active := 0

end Sys2Proof.Machine
end

