-- ==== Sys2Proof/Machine/Ops.lean ====
section
/-! DEFINITION. The operations every request shares: the stack, the ALU, how a request ends. -/

namespace Sys2Proof.Machine

/-- How one request ends, as a function of its context's stack: with a new stack and a value, with one of the four
errors and the stack unchanged (60_exceptions.md R125), or with the model-only fault mark and the stack unchanged
(40_operand_stack.md R92). -/
inductive Result where
  /-- success -/
  | done (stack : Stack) (v : Value)
  /-- one of the four errors -/
  | error (e : Error)
  /-- the push would pass a finite `STACK_CAPACITY` -/
  | capacityFault
  deriving DecidableEq, Repr

/-! ## Pure operations over one stack -/

/-- `len(S) + n` does not pass `STACK_CAPACITY` (R92). -/
def fits (capacity : Option Nat) (S : Stack) (n : Nat) : Bool :=
  match capacity with
  | none => true
  | some N => decide (S.length + n ≤ N)

/-- `push_w(v)` as one transition, most-significant byte first (40_operand_stack.md R82, R84, R86), with the check of
R92. -/
def pushOp (capacity : Option Nat) (w : Width) (v : Nat) (answer : Value) (S : Stack) : Result :=
  if fits capacity S w.bytes then .done (S ++ bytesBe w.bytes v) answer else .capacityFault

/-- `pop_w()`: the length is checked before any byte is removed (R90, 92 D6; log 12); the value is `be` of the top `w`
bytes (R83, R85, R87, R91). -/
def popOp (w : Width) (answer : Nat → Value) (S : Stack) : Result :=
  if S.length < w.bytes then .error (.stackUnderflow w.bytes S.length)
  else .done (S.take (S.length - w.bytes)) (answer (be (S.drop (S.length - w.bytes))))

/-- The ALU at one operation and width: the exact natural-number sum, or the error with both operands in instruction
order (41_add.md R100 to R103). -/
def alu (op : AluOp) (w : Width) (a b : Nat) : Except Error Nat :=
  match op with
  | .add => if overflows w (a + b) then .error (.arithmeticOverflow a b) else .ok (a + b)

/-- Steps 6 and 7 of `execute`: the ALU, then the push of the same width, then the Delta (41_add.md R104). The
capacity check comes after the overflow check (R110). -/
def dispatchOp (capacity : Option Nat) (op : AluOp) (w : Width) (minimumLength a b : Nat) (S : Stack) : Result :=
  match alu op w a b with
  | .error e => .error e
  | .ok s => pushOp capacity w s (.delta ⟨minimumLength, w.bytes⟩) S

/-! ## Operations over the state -/

/-- The active context's stack becomes `S`; every other context keeps its own (10_state.md R27). -/
def State.putStack (s : State) (S : Stack) : State :=
  { s with contexts := s.contexts.set s.active (.live S) }

/-- The host of the active context gets a reply. -/
def State.answer (s : State) (r : Reply) : State :=
  { s with replies := (s.active, r) :: s.replies }

/-- A failing request: "every failure is returned to the caller as a typed value" (60_exceptions.md R126). Nothing is
saved and nothing else changes, so there is no entry to return from (R125, R127, R128). DEDUCED, safe: log 15. -/
def State.raise (s : State) (e : Error) : State := s.answer (.error e)

/-- The model-only fault: the mark is set, the stack stays, the host gets none of the four errors
(40_operand_stack.md R92, 10_state.md R33). DEDUCED, unsafe: log 4. -/
def State.markCapacity (s : State) : State := { s with capacityFault := true }

/-- The end of a request in the state. -/
def State.settle (s : State) : Result → State
  | .done S v => (s.putStack S).answer (.value v)
  | .error e => s.raise e
  | .capacityFault => s.markCapacity

/-- A request that runs on the active context's stack. A context that has ended has no step
(70_reset_and_hazards.md R143; log 7), and one that never began issues no request (R142). -/
def State.onStack (s : State) (op : Stack → Result) : Host.Outcome State Fault Refusal :=
  match s.contexts[s.active]? with
  | some (.live S) => .next (s.settle (op S))
  | some .ended => .fault (.contextEnded s.active)
  | none => .refused (.noSuchContext s.active)

/-- The numeric code of an error kind, for a realization that reports errors on a port (60_exceptions.md R120, 92 D24;
log 24). -/
def errorCode : Error → Nat
  | .stackUnderflow _ _ => 1
  | .instructionTooShort _ _ _ => 2
  | .unknownOpcode _ => 3
  | .arithmeticOverflow _ _ => 4

end Sys2Proof.Machine
end

