-- ==== Sys2Proof/Machine/Add.lean ====
section
/-! DEFINITION. The add family (spec/41_add.md R100 to R110). Whether a width is present is the decoder's matter
(DESIGN CHOICE, safe: log 3). -/

namespace Sys2Proof.Machine

/-- `ADD8 a, b` (R105): pushes one byte, `Delta{4, 1}`. -/
def execAdd8 (a b : BitVec 8) (s : State) : Host.Outcome State Fault Refusal :=
  s.onStack (dispatchOp s.config.stackCapacity .add .w8 (minLen .w8) a.toNat b.toNat)

/-- `ADD16 a, b` (R106): pushes two bytes, `Delta{6, 2}`. -/
def execAdd16 (a b : BitVec 16) (s : State) : Host.Outcome State Fault Refusal :=
  s.onStack (dispatchOp s.config.stackCapacity .add .w16 (minLen .w16) a.toNat b.toNat)

/-- `ADD32 a, b` (R107): pushes four bytes, `Delta{10, 4}`. -/
def execAdd32 (a b : BitVec 32) (s : State) : Host.Outcome State Fault Refusal :=
  s.onStack (dispatchOp s.config.stackCapacity .add .w32 (minLen .w32) a.toNat b.toNat)

end Sys2Proof.Machine
end

