-- ==== Sys2Proof/Machine/Dispatch.lean ====
section
/-! DEFINITION. One arm per instruction. -/

namespace Sys2Proof.Machine

/-- Steps 6 and 7 of `execute` on a decoded instruction (41_add.md section 1). -/
def exec (i : Instr) (s : State) : Host.Outcome State Fault Refusal :=
  match i with
  | .add8 a b => Sys2Proof.Machine.execAdd8 a b s
  | .add16 a b => Sys2Proof.Machine.execAdd16 a b s
  | .add32 a b => Sys2Proof.Machine.execAdd32 a b s

end Sys2Proof.Machine
end

