-- ==== Sys2Proof/Machine/Ports.lean ====
section
/-! DEFINITION. The requests that are not `execute`, the end of a context and the reset
(spec/40_operand_stack.md, spec/70_reset_and_hazards.md). -/

namespace Sys2Proof.Machine

/-- Whether the context exists now. -/
def Context.isLive : Context → Bool
  | .live _ => true
  | .ended => false

/-- How many contexts exist now (60_exceptions.md R134). -/
def liveCount (cs : List Context) : Nat := (cs.filter Context.isLive).length

/-- One more context may exist (00_scope.md R7, `N_CONTEXTS`). -/
def roomForContext (cfg : Config) (cs : List Context) : Bool :=
  match cfg.nContexts with
  | none => true
  | some N => decide (liveCount cs < N)

/-- The next context begins with an empty stack (10_state.md R28, 60_exceptions.md R134). -/
def State.beginContext (s : State) : State := { s with contexts := s.contexts ++ [.live []] }

/-- `new()` (40_operand_stack.md R80): begins the next context with an empty stack, and empties the stack of a context
that exists (70_reset_and_hazards.md R141). DEDUCED, safe: log 6. -/
def requestNew (s : State) : Host.Outcome State Fault Refusal :=
  match s.contexts[s.active]? with
  | some (.live _) => .next ((s.putStack []).answer (.value .newStack))
  | some .ended => .fault (.contextEnded s.active)
  | none =>
    if s.active = s.contexts.length then
      if roomForContext s.config s.contexts then
        .next (s.beginContext.answer (.value .newStack))
      else .refused .tooManyContexts
    else .refused (.noSuchContext s.active)

/-- `len()` (R81). -/
def requestLen (s : State) : Host.Outcome State Fault Refusal :=
  s.onStack fun S => .done S (.length S.length)

/-- `push8(b)` (R82). -/
def requestPush8 (b : BitVec 8) (s : State) : Host.Outcome State Fault Refusal :=
  s.onStack (pushOp s.config.stackCapacity .w8 b.toNat .pushed)

/-- `pop8()` (R83). -/
def requestPop8 (s : State) : Host.Outcome State Fault Refusal :=
  s.onStack (popOp .w8 fun v => .popped8 (BitVec.ofNat 8 v))

/-- `push16(v)` (R84). -/
def requestPush16 (v : BitVec 16) (s : State) : Host.Outcome State Fault Refusal :=
  s.onStack (pushOp s.config.stackCapacity .w16 v.toNat .pushed)

/-- `pop16()` (R85). -/
def requestPop16 (s : State) : Host.Outcome State Fault Refusal :=
  s.onStack (popOp .w16 fun v => .popped16 (BitVec.ofNat 16 v))

/-- `push32(v)` (R86). -/
def requestPush32 (v : BitVec 32) (s : State) : Host.Outcome State Fault Refusal :=
  s.onStack (pushOp s.config.stackCapacity .w32 v.toNat .pushed)

/-- `pop32()` (R87). -/
def requestPop32 (s : State) : Host.Outcome State Fault Refusal :=
  s.onStack (popOp .w32 fun v => .popped32 (BitVec.ofNat 32 v))

/-- The context `c` ends and its stack is destroyed (70_reset_and_hazards.md R143). -/
def endContext (c : Nat) (s : State) : Host.Outcome State Fault Refusal :=
  match s.contexts[c]? with
  | some (.live _) => .next { s with contexts := s.contexts.set c .ended }
  | some .ended => .fault (.contextEnded c)
  | none => .refused (.noSuchContext c)

/-- A context right after a reset: its stack empty; an ended context stays ended (R140, R143). -/
def Context.afterReset : Context → Context
  | .live _ => .live []
  | .ended => .ended

/-- A reset of the block (70_reset_and_hazards.md R140, 92 D13): every context's stack is empty, `capacity_fault` is
clear, the opcode table does not change. DESIGN CHOICE, unsafe: log 14. -/
def resetBlock (s : State) : State :=
  { s with contexts := s.contexts.map Context.afterReset, capacityFault := false, active := 0 }

end Sys2Proof.Machine
end

