-- ==== Sys2Proof/Machine/Fetch.lean ====
section
/-! DEFINITION. How the block takes a host's move and serves it. There is no program counter: an `execute` request
brings its own bytes (spec/10_state.md R21, R31). -/

namespace Sys2Proof.Machine

/-- The block takes the next move: it leaves the queue, and a request makes its context the active one. -/
def State.accept (s : State) (c : Nat) (rest : List HostMove) : State :=
  { s with pending := rest, active := c }

/-- `execute(B)`: decode at byte 0 of `B`, then run the instruction (41_add.md section 1). -/
def requestExecute (bytes : List Byte) (s : State) : Host.Outcome State Fault Refusal :=
  match decode s.config bytes with
  | .ok i => exec i s
  | .error e => s.onStack fun _ => .error e

/-- One request of the active context (60_exceptions.md R135). -/
def serveRequest (r : Request) (s : State) : Host.Outcome State Fault Refusal :=
  match r with
  | .new => requestNew s
  | .len => requestLen s
  | .push8 b => requestPush8 b s
  | .pop8 => requestPop8 s
  | .push16 v => requestPush16 v s
  | .pop16 => requestPop16 s
  | .push32 v => requestPush32 v s
  | .pop32 => requestPop32 s
  | .execute bytes => requestExecute bytes s

/-- One atomic transition (00_scope.md R11): the next move of the host. A configuration that R7 says to refuse is
refused (log 17). With no move the state stays as it is (DEDUCED, safe: log 11). -/
def serveNext (s : State) : Host.Outcome State Fault Refusal :=
  if configOk s.config then
    match s.pending with
    | [] => .next s
    | .request c r :: rest => serveRequest r (s.accept c rest)
    | .endContext c :: rest => endContext c { s with pending := rest }
    | .reset :: rest => .next (resetBlock { s with pending := rest })
  else .refused .badConfiguration

/-- The place of the first context that exists. -/
def firstLive : List Context → Option Nat
  | [] => none
  | .live _ :: _ => some 0
  | .ended :: cs => (firstLive cs).map (· + 1)

/-- The host hands `bytes` to `execute` in the first context that exists, as its next move; where none exists, one
begins. -/
def placeExecute (s : State) (bytes : List Byte) : State :=
  match firstLive s.contexts with
  | some c => { s with pending := .request c (.execute bytes) :: s.pending }
  | none =>
    { s with
      contexts := s.contexts ++ [.live []]
      pending := .request s.contexts.length (.execute bytes) :: s.pending }

end Sys2Proof.Machine
end

