-- ==== Sys2Proof/Machine/Step.lean ====
section
/-! DEFINITION. The step, and how the host places an instruction where the next step takes it. -/

namespace Sys2Proof.Machine

/-- One step: the block serves the host's next move as one atomic transition (00_scope.md R11, 20_memory.md R49). -/
def step (s : State) : Host.Outcome State Fault Refusal := serveNext s

/-- `s` with an `execute` request for the instruction of a table word as the host's next move. A program is handed to
the block from outside, never fetched (log 8). -/
def State.withFetchWord (s : State) (nbits w : Nat) : State := placeExecute s (tableBytes nbits w)

end Sys2Proof.Machine
end

