-- ==== Sys2Proof/Machine/Assembler.lean ====
section
/-! DEFINITION. The assembler syntax of spec/30_encoding.md R73 (the spec's own choice, 92 D15). Spaces and the order of
the fields in the text: DESIGN CHOICE, safe: log 18. -/

namespace Sys2Proof.Machine

/-- A statement `ADD8 a, b`, `ADD16 a, b` or `ADD32 a, b`: the mnemonic by its width, and two literals. -/
structure AsmStatement where
  /-- the width of the mnemonic -/
  width : Width
  /-- the first literal -/
  a : Nat
  /-- the second literal -/
  b : Nat
  deriving DecidableEq, Repr

/-- Each literal is below `256^w` (R73). -/
def literalsFit (st : AsmStatement) : Bool := decide (st.a ≤ st.width.maxValue ∧ st.b ≤ st.width.maxValue)

/-- The bytes of a statement, or `none` where a literal does not fit or the instruction is not present (R73). -/
def assemble (cfg : Config) (st : AsmStatement) : Option (List Byte) :=
  if literalsFit st && cfg.widths.contains st.width then
    some (encode cfg (instrOf .add st.width st.a st.b))
  else none

/-- A digit of the base, 10 or 16. -/
def digitValue (base : Nat) (c : Char) : Option Nat :=
  let n := c.toNat
  let d := if 48 ≤ n ∧ n ≤ 57 then n - 48
    else if 97 ≤ n ∧ n ≤ 102 then n - 87
    else if 65 ≤ n ∧ n ≤ 70 then n - 55
    else base
  if d < base then some d else none

/-- Digits read on from a value so far. -/
def readDigits (base : Nat) : List Char → Nat → Option Nat
  | [], acc => some acc
  | c :: cs, acc =>
    match digitValue base c with
    | some d => readDigits base cs (acc * base + d)
    | none => none

/-- An unsigned integer literal, decimal or `0x` hexadecimal (R73). -/
def readLiteral : List Char → Option Nat
  | [] => none
  | '0' :: 'x' :: d :: ds => readDigits 16 (d :: ds) 0
  | c :: cs => readDigits 10 (c :: cs) 0

/-- The mnemonic of R73. -/
def readMnemonic : List Char → Option Width
  | ['A', 'D', 'D', '8'] => some .w8
  | ['A', 'D', 'D', '1', '6'] => some .w16
  | ['A', 'D', 'D', '3', '2'] => some .w32
  | _ => none

/-- Text without its spaces at both ends. -/
def trimSpaces (cs : List Char) : List Char :=
  ((cs.dropWhile (· == ' ')).reverse.dropWhile (· == ' ')).reverse

/-- A statement from its text: the mnemonic up to a space, then two literals with a comma between them. -/
def readStatement (text : List Char) : Option AsmStatement :=
  let line := trimSpaces text
  let operands := line.dropWhile (· != ' ')
  match readMnemonic (line.takeWhile (· != ' ')),
      readLiteral (trimSpaces (operands.takeWhile (· != ','))),
      readLiteral (trimSpaces ((operands.dropWhile (· != ',')).drop 1)) with
  | some w, some a, some b => some ⟨w, a, b⟩
  | _, _, _ => none

/-- The bytes of a statement given as text. -/
def assembleText (cfg : Config) (text : List Char) : Option (List Byte) :=
  match readStatement text with
  | some st => assemble cfg st
  | none => none

end Sys2Proof.Machine
end

