-- ==== Sys2Proof/Machine/Driver.lean ====
section
/-! DEFINITION. `execute` as one function of the bytes and the stack (spec/41_add.md section 1), and the reference host
driver of spec/60_exceptions.md R136, which is not part of the block. -/

namespace Sys2Proof.Machine

/-- Steps 6 and 7 of a decoded instruction, as a function of the stack (41_add.md section 1). -/
def executeInstr (cfg : Config) (i : Instr) (S : Stack) : Result :=
  match i with
  | .add8 a b => dispatchOp cfg.stackCapacity .add .w8 (minLen .w8) a.toNat b.toNat S
  | .add16 a b => dispatchOp cfg.stackCapacity .add .w16 (minLen .w16) a.toNat b.toNat S
  | .add32 a b => dispatchOp cfg.stackCapacity .add .w32 (minLen .w32) a.toNat b.toNat S

/-- `execute(B, S)` (41_add.md section 1): a pure function of the bytes and the stack (R111). -/
def execute (cfg : Config) (bytes : List Byte) (S : Stack) : Result :=
  match decode cfg bytes with
  | .error e => .error e
  | .ok i => executeInstr cfg i S

/-- How a run of the driver ends (R136). The third end is the model-only fault of a finite capacity
(DESIGN CHOICE, safe: log 19). -/
inductive RunEnd where
  /-- every byte was consumed by successful instructions -/
  | done
  /-- an instruction failed -/
  | error (e : Error)
  /-- a push would have passed a finite `STACK_CAPACITY` -/
  | capacityFault
  deriving DecidableEq, Repr

/-- The end of a run, the bytes not consumed and the stack. -/
structure Run where
  /-- how it ended -/
  outcome : RunEnd
  /-- the bytes left; after an error they begin with the failing instruction -/
  rest : List Byte
  /-- the stack as the last call left it -/
  stack : Stack
  deriving DecidableEq, Repr

/-- The loop of R136 with at most the given number of calls; `none` where they do not suffice. -/
def runCalls (cfg : Config) : Nat → List Byte → Stack → Option Run
  | _, [], S => some ⟨.done, [], S⟩
  | 0, _ :: _, _ => none
  | n + 1, P, S =>
    match execute cfg P S with
    | .error e => some ⟨.error e, P, S⟩
    | .capacityFault => some ⟨.capacityFault, P, S⟩
    | .done S' (.delta d) => runCalls cfg n (P.drop d.instBytesConsumed) S'
    | .done _ _ => none

/-- `run(P, S)` (R136): every successful call consumes at least 4 bytes, so `len(P)` calls suffice. -/
def run (cfg : Config) (P : List Byte) (S : Stack) : Option Run := runCalls cfg P.length P S

end Sys2Proof.Machine
end

