-- ==== Sys2Proof/Safety.lean ====
section
/-! DEFINITION. The terms claims are stated in: invariants, host duties, the end of a run. -/

namespace Sys2Proof.Machine

/-- The payload constraints of 60_exceptions.md R121, R122, R124: `attempted` is a width and `remaining` is less; `actual` is less
than `min`, which is 2 without an opcode and an instruction's length with one; the operands of an overflow fit one width
that their sum passes. -/
def errorOk : Error → Prop
  | .stackUnderflow attempted remaining => (∃ w : Width, attempted = w.bytes) ∧ remaining < attempted
  | .instructionTooShort none min actual => min = 2 ∧ actual < 2
  | .instructionTooShort (some _) min actual => (min = 4 ∨ min = 6 ∨ min = 10) ∧ 2 ≤ actual ∧ actual < min
  | .unknownOpcode _ => True
  | .arithmeticOverflow a b => ∃ w : Width, a ≤ w.maxValue ∧ b ≤ w.maxValue ∧ w.maxValue < a + b

/-- A reply as the spec lets one be: an error with the payload above, a Delta of 41_add.md R104, any other value. -/
def replyOk : Reply → Prop
  | .error e => errorOk e
  | .value (.delta d) => ∃ w : Width, d = ⟨minLen w, w.bytes⟩
  | .value _ => True

/-- No stack passes a finite `STACK_CAPACITY` (40_operand_stack.md R92). -/
def stacksOk (s : State) : Prop :=
  ∀ N, s.config.stackCapacity = some N → ∀ S, Context.live S ∈ s.contexts → S.length ≤ N

/-- No more contexts exist than `N_CONTEXTS` (00_scope.md R7). -/
def contextsBounded (s : State) : Prop :=
  ∀ N, s.config.nContexts = some N → liveCount s.contexts ≤ N

/-- Under the unbounded default the mark is never set (10_state.md R33). -/
def faultMarkOk (s : State) : Prop := s.config.stackCapacity = none → s.capacityFault = false

/-- What every transition keeps. -/
structure State.Inv (s : State) : Prop where
  /-- the configuration is one R7 lets a model take -/
  config : configOk s.config = true
  /-- R92 -/
  capacity : stacksOk s
  /-- R7 -/
  contexts : contextsBounded s
  /-- R33 -/
  faultMark : faultMarkOk s
  /-- R104, R120 to R124 -/
  replies : ∀ c r, (c, r) ∈ s.replies → replyOk r

/-- The context exists. -/
def State.isLive (s : State) (c : Nat) : Prop := ∃ S, s.contexts[c]? = some (.live S)

/-- The host's next moves are requests of contexts that exist: the host duty of 70_reset_and_hazards.md R142 and R143,
for a host that only issues requests. -/
def State.onlyLiveRequests (s : State) : Prop :=
  ∀ m ∈ s.pending, ∃ c r, m = .request c r ∧ s.isLive c

/-- The host's next move is the request `r` of context `c`, which exists with the stack `S`, at a configuration R7 lets
a model take. -/
structure State.Serves (s : State) (c : Nat) (S : Stack) (r : Request) (rest : List HostMove) : Prop where
  /-- R7 -/
  config : configOk s.config = true
  /-- the context exists -/
  context : s.contexts[c]? = some (.live S)
  /-- the queue -/
  pending : s.pending = .request c r :: rest

/-- `s` after a request of `c` that returned `v` and left the stack `S`. Everything else is as before. -/
def State.afterValue (s : State) (c : Nat) (rest : List HostMove) (S : Stack) (v : Value) : State :=
  { s with
    pending := rest
    active := c
    contexts := s.contexts.set c (.live S)
    replies := (c, .value v) :: s.replies }

/-- `s` after a request of `c` that failed with `e`. Everything else is as before. -/
def State.afterError (s : State) (c : Nat) (rest : List HostMove) (e : Error) : State :=
  { s with pending := rest, active := c, replies := (c, .error e) :: s.replies }

/-- `s` after a request of `c` whose push would have passed a finite capacity. Everything else is as before. -/
def State.afterCapacityFault (s : State) (c : Nat) (rest : List HostMove) : State :=
  { s with pending := rest, active := c, capacityFault := true }

/-- A successful final state: nothing is left to serve and the fault mark is clear (40_operand_stack.md R92: "A faulted
state is never a successful final state"). -/
def State.successfulEnd (s : State) : Bool := s.pending.isEmpty && !s.capacityFault

/-- The replies one context got, the newest first. -/
def State.repliesOf (s : State) (c : Nat) : List Reply :=
  (s.replies.filter (·.1 == c)).map (·.2)

end Sys2Proof.Machine
end

