-- ==== Sys2Proof/Certificates/Slice0/Obligations.lean ====
section
/-! DEFINITION. The statements for the provers. `State.Serves`, `State.afterValue`, `State.afterError` and
`State.afterCapacityFault` (Sys2Proof/Safety.lean) write out every field, so an equation with them is also the frame. -/

open Sys2Proof
open Sys2Proof.Machine

/-! ## Reset and invariants -/

/-- 10_state.md R34 and 70_reset_and_hazards.md R140: right after reset every stack is empty, the mark is clear and the
table is the constant of R30. That the table holds ADD16 and ADD32 at 1 and 2 rests on the spec's defaults 92 D2, D3,
D4 (log 2, 3). -/
def Obligations.ResetLeavesEmptyStacks : Prop :=
  (∀ x ∈ State.reset.contexts, x = .live []) ∧ State.reset.capacityFault = false ∧
  opcodeTable State.reset.config =
    [⟨0x0000, "ADD8", 4, .w8, .add⟩, ⟨0x0001, "ADD16", 6, .w16, .add⟩, ⟨0x0002, "ADD32", 10, .w32, .add⟩]

/-- The reset state has the invariant. -/
def Obligations.ResetHasInvariant : Prop := State.reset.Inv

/-- Every step keeps the invariant: the configuration stays acceptable (R7), no stack passes a finite capacity (R92), no
more contexts exist than `N_CONTEXTS` (R7), the mark is clear under the unbounded default (R33), and every reply has
the payload of R104 and R120 to R124. The capacity clauses rest on the spec's D5 (log 4); counting only the contexts
that have not ended is the model's choice (log 5). -/
def Obligations.StepKeepsInvariant : Prop :=
  ∀ s t : State, s.Inv → step s = .next t → t.Inv

/-! ## Encoding and decode -/

/-- Decode and encode agree at every acceptable configuration, for every present instruction, whatever bytes follow
(30_encoding.md R61, R67, R68). -/
def Obligations.DecodeOfEncodeIsInstruction : Prop :=
  ∀ (cfg : Config) (i : Instr) (t : List Byte), configOk cfg = true → i.wellFormed cfg = true →
    decode cfg (encode cfg i ++ t) = .ok i

/-- The other direction: bytes that decode begin with the encoding of what they decode to, which is present, so no bit of
an instruction is dropped and each word has one meaning (30_encoding.md R60, R61). -/
def Obligations.DecodedBytesAreItsEncoding : Prop :=
  ∀ (cfg : Config) (i : Instr) (bytes : List Byte), configOk cfg = true → decode cfg bytes = .ok i →
    i.wellFormed cfg = true ∧ bytes = encode cfg i ++ bytes.drop (minLen i.width)

/-- Words written out from 95_test_vectors.md W4, A16-1, A32-1, D-8 and D-11. The ADD16 and ADD32 words rest on the
spec's default identifiers 92 D2, D3 (log 2). -/
def Obligations.SpecWordsDecode : Prop :=
  decode hardwareConfig [0x00, 0x00, 0x15, 0x03] = .ok (.add8 21 3) ∧
  decode hardwareConfig [0x00, 0x01, 0x12, 0x34, 0x00, 0x01] = .ok (.add16 0x1234 1) ∧
  decode hardwareConfig [0x00, 0x02, 0x00, 0x00, 0x00, 0x01, 0xFF, 0xFF, 0xFF, 0xFE] = .ok (.add32 1 0xFFFFFFFE) ∧
  decode hardwareConfig [0x01, 0x00, 0x00, 0x00] = .error (.unknownOpcode 0x0100) ∧
  decode { hardwareConfig with widths := [.w8] } [0x00, 0x01, 0x12, 0x34, 0x00, 0x01] = .error (.unknownOpcode 0x0001)

/-- 30_encoding.md R61: the three formats, byte by byte and as one big-endian integer with the opcode above both
operands, and their lengths. -/
def Obligations.FormatsLayFieldsBigEndian : Prop :=
  (∀ (cfg : Config) (a b : BitVec 8),
    encode cfg (.add8 a b) = [0x00, 0x00, a, b] ∧
    be (encode cfg (.add8 a b)) = 0 * 2 ^ 16 + a.toNat * 2 ^ 8 + b.toNat ∧
    (encode cfg (.add8 a b)).length = 4) ∧
  (∀ (cfg : Config) (a b : BitVec 16),
    encode cfg (.add16 a b) = [cfg.opcAdd16.extractLsb' 8 8, cfg.opcAdd16.extractLsb' 0 8,
      a.extractLsb' 8 8, a.extractLsb' 0 8, b.extractLsb' 8 8, b.extractLsb' 0 8] ∧
    be (encode cfg (.add16 a b)) = cfg.opcAdd16.toNat * 2 ^ 32 + a.toNat * 2 ^ 16 + b.toNat ∧
    (encode cfg (.add16 a b)).length = 6) ∧
  (∀ (cfg : Config) (a b : BitVec 32),
    encode cfg (.add32 a b) = [cfg.opcAdd32.extractLsb' 8 8, cfg.opcAdd32.extractLsb' 0 8,
      a.extractLsb' 24 8, a.extractLsb' 16 8, a.extractLsb' 8 8, a.extractLsb' 0 8,
      b.extractLsb' 24 8, b.extractLsb' 16 8, b.extractLsb' 8 8, b.extractLsb' 0 8] ∧
    be (encode cfg (.add32 a b)) = cfg.opcAdd32.toNat * 2 ^ 64 + a.toNat * 2 ^ 32 + b.toNat ∧
    (encode cfg (.add32 a b)).length = 10)

/-- 00_scope.md R9: `be` is the sum with the first byte most significant, byte `i` of `bytes_be_n(v)` is
`v[8*(n-1-i)+7 : 8*(n-1-i)]`, and the two are inverse. -/
def Obligations.BigEndianAssembly : Prop :=
  (∀ s : List Byte, be s = ∑ i : Fin s.length, (s[i]).toNat * 256 ^ (s.length - 1 - i.val)) ∧
  (∀ n v i : Nat, i < n → (bytesBe n v)[i]? = some (BitVec.ofNat 8 (v >>> (8 * (n - 1 - i))))) ∧
  (∀ n v : Nat, v < 256 ^ n → be (bytesBe n v) = v) ∧
  (∀ s : List Byte, bytesBe s.length (be s) = s)

/-- 30_encoding.md R66 and 10_state.md R30: which identifiers have an entry, one entry each, and the fields that go with
its width. The identifiers of ADD16 and ADD32 and their presence are parameters (92 D2, D3, D4; log 2, 3). -/
def Obligations.OpcodeTableHasExactlyThePresentWidths : Prop :=
  ∀ cfg : Config, configOk cfg = true →
    (∀ id : OpcodeId, (lookup cfg id).isSome = true ↔
      (id = 0x0000 ∨ (Width.w16 ∈ cfg.widths ∧ id = cfg.opcAdd16) ∨ (Width.w32 ∈ cfg.widths ∧ id = cfg.opcAdd32))) ∧
    (∀ d ∈ opcodeTable cfg, lookup cfg d.id = some d ∧ d.minimumLength = 2 + 2 * d.operandWidth.bytes) ∧
    (∀ w, w ∈ cfg.widths ↔ ∃ d ∈ opcodeTable cfg, d.operandWidth = w) ∧
    (∀ d ∈ opcodeTable cfg, ∀ d' ∈ opcodeTable cfg, d.operandWidth = d'.operandWidth → d = d')

/-- 30_encoding.md R62: fewer than two bytes fail before any lookup, with no opcode. The stack is untouched. -/
def Obligations.TooShortForTheOpcode : Prop :=
  ∀ (s : State) (c : Nat) (S : Stack) (rest : List HostMove) (bytes : List Byte),
    s.Serves c S (.execute bytes) rest → bytes.length < 2 →
    step s = .next (s.afterError c rest (.instructionTooShort none 2 bytes.length))

/-- 30_encoding.md R64: an identifier without an entry fails, however few bytes follow it. -/
def Obligations.UnknownIdentifierFails : Prop :=
  ∀ (s : State) (c : Nat) (S : Stack) (rest : List HostMove) (b0 b1 : Byte) (t : List Byte),
    s.Serves c S (.execute (b0 :: b1 :: t)) rest →
    (∀ d ∈ opcodeTable s.config, d.id ≠ b0 ++ b1) →
    step s = .next (s.afterError c rest (.unknownOpcode (b0 ++ b1)))

/-- 30_encoding.md R65: a known identifier with fewer bytes than its instruction fails with the identifier; the least
length is 4, 6 or 10. -/
def Obligations.TooShortForTheInstruction : Prop :=
  ∀ (s : State) (c : Nat) (S : Stack) (rest : List HostMove) (b0 b1 : Byte) (t : List Byte),
    s.Serves c S (.execute (b0 :: b1 :: t)) rest →
    ∀ d ∈ opcodeTable s.config, d.id = b0 ++ b1 →
    (d.minimumLength = 4 ∨ d.minimumLength = 6 ∨ d.minimumLength = 10) ∧
    ((b0 :: b1 :: t).length < d.minimumLength →
      step s = .next
        (s.afterError c rest (.instructionTooShort (some d.id) d.minimumLength (b0 :: b1 :: t).length)))

/-- 30_encoding.md R72: a window of 10 bytes, with a length that stops counting at 10, decodes as the whole sequence
does. The window is the spec's D14. -/
def Obligations.TenByteWindowSuffices : Prop :=
  ∀ (cfg : Config) (bytes : List Byte), decode cfg (bytes.take windowBytes) = decode cfg bytes

/-- 30_encoding.md R68 (the spec's D8, log 13): bytes after a whole instruction change nothing. -/
def Obligations.TrailingBytesAreIgnored : Prop :=
  ∀ (cfg : Config) (bytes t : List Byte) (d : Descriptor), 2 ≤ bytes.length →
    lookup cfg (opcodeField bytes) = some d → d.minimumLength ≤ bytes.length →
    decode cfg (bytes ++ t) = decode cfg bytes

/-- 30_encoding.md R73 (the spec's D15, log 18): a statement whose literals fit and whose width is present assembles to
bytes that decode to it; one whose literal does not fit is rejected. -/
def Obligations.AssembledStatementDecodes : Prop :=
  ∀ (cfg : Config) (w : Width) (a b : Nat), configOk cfg = true → w ∈ cfg.widths →
    (a < 256 ^ w.bytes → b < 256 ^ w.bytes →
      ∃ bytes, assemble cfg ⟨w, a, b⟩ = some bytes ∧ decode cfg bytes = .ok (instrOf .add w a b)) ∧
    ((256 ^ w.bytes ≤ a ∨ 256 ^ w.bytes ≤ b) → assemble cfg ⟨w, a, b⟩ = none)

/-! ## A step runs the decoded instruction -/

/-- Where the bytes of the next `execute` request decode to an instruction, the step is that instruction's `exec`, on the
state with the request taken from the queue and its context active. -/
def Obligations.StepRunsTheDecodedInstruction : Prop :=
  ∀ (s : State) (c : Nat) (rest : List HostMove) (bytes : List Byte) (i : Instr),
    configOk s.config = true → s.pending = .request c (.execute bytes) :: rest → decode s.config bytes = .ok i →
    step s = exec i { s with pending := rest, active := c }

/-- The host's placing of a table word: the very next step runs it, in a context that exists, from every state with an
acceptable configuration. The numbering of the word's bits is the model's reading (log 16); how a program is handed over
is log 8. -/
def Obligations.PlacedTableWordRunsNext : Prop :=
  ∀ (s : State) (nbits w : Nat) (i : Instr),
    configOk s.config = true → decode s.config (tableBytes nbits w) = .ok i →
    ∃ c S, (s.withFetchWord nbits w).contexts[c]? = some (.live S) ∧
      step (s.withFetchWord nbits w) = exec i { s.withFetchWord nbits w with pending := s.pending, active := c }

/-! ## The instructions -/

/-- 41_add.md R104 for ADD8: with room and no overflow `exec` completes. Only the active stack and the replies change. -/
def Obligations.ExecAdd8PushesTheSum : Prop :=
  ∀ (a b : BitVec 8) (s : State) (S : Stack), s.contexts[s.active]? = some (.live S) →
    a.toNat + b.toNat ≤ 0xFF → (∀ N, s.config.stackCapacity = some N → S.length + 1 ≤ N) →
    exec (.add8 a b) s = .next
      { s with
        contexts := s.contexts.set s.active (.live (S ++ [a + b]))
        replies := (s.active, .value (.delta ⟨4, 1⟩)) :: s.replies }

/-- 41_add.md R104 for ADD16. -/
def Obligations.ExecAdd16PushesTheSum : Prop :=
  ∀ (a b : BitVec 16) (s : State) (S : Stack), s.contexts[s.active]? = some (.live S) →
    a.toNat + b.toNat ≤ 0xFFFF → (∀ N, s.config.stackCapacity = some N → S.length + 2 ≤ N) →
    exec (.add16 a b) s = .next
      { s with
        contexts := s.contexts.set s.active (.live (S ++ [(a + b).extractLsb' 8 8, (a + b).extractLsb' 0 8]))
        replies := (s.active, .value (.delta ⟨6, 2⟩)) :: s.replies }

/-- 41_add.md R104 for ADD32. -/
def Obligations.ExecAdd32PushesTheSum : Prop :=
  ∀ (a b : BitVec 32) (s : State) (S : Stack), s.contexts[s.active]? = some (.live S) →
    a.toNat + b.toNat ≤ 0xFFFFFFFF → (∀ N, s.config.stackCapacity = some N → S.length + 4 ≤ N) →
    exec (.add32 a b) s = .next
      { s with
        contexts := s.contexts.set s.active (.live (S ++ [(a + b).extractLsb' 24 8, (a + b).extractLsb' 16 8,
          (a + b).extractLsb' 8 8, (a + b).extractLsb' 0 8]))
        replies := (s.active, .value (.delta ⟨10, 4⟩)) :: s.replies }

/-- 41_add.md R103 and R110: an add that overflows reports both operands in order and changes nothing but the replies,
whatever the capacity, since the capacity is checked last (the last point is the spec's D5, log 4). -/
def Obligations.ExecAddOverflowChangesNothingElse : Prop :=
  (∀ (a b : BitVec 8) (s : State) (S : Stack), s.contexts[s.active]? = some (.live S) → 0xFF < a.toNat + b.toNat →
    exec (.add8 a b) s = .next
      { s with replies := (s.active, .error (.arithmeticOverflow a.toNat b.toNat)) :: s.replies }) ∧
  (∀ (a b : BitVec 16) (s : State) (S : Stack), s.contexts[s.active]? = some (.live S) → 0xFFFF < a.toNat + b.toNat →
    exec (.add16 a b) s = .next
      { s with replies := (s.active, .error (.arithmeticOverflow a.toNat b.toNat)) :: s.replies }) ∧
  (∀ (a b : BitVec 32) (s : State) (S : Stack), s.contexts[s.active]? = some (.live S) →
    0xFFFFFFFF < a.toNat + b.toNat →
    exec (.add32 a b) s = .next
      { s with replies := (s.active, .error (.arithmeticOverflow a.toNat b.toNat)) :: s.replies })

/-- 41_add.md R110 and 40_operand_stack.md R92 (the spec's D5, log 4): an add that does not overflow but whose push would
pass a finite capacity sets the mark and changes nothing else. -/
def Obligations.ExecAddPastCapacitySetsTheMark : Prop :=
  (∀ (a b : BitVec 8) (s : State) (S : Stack) (N : Nat), s.contexts[s.active]? = some (.live S) →
    a.toNat + b.toNat ≤ 0xFF → s.config.stackCapacity = some N → N < S.length + 1 →
    exec (.add8 a b) s = .next { s with capacityFault := true }) ∧
  (∀ (a b : BitVec 16) (s : State) (S : Stack) (N : Nat), s.contexts[s.active]? = some (.live S) →
    a.toNat + b.toNat ≤ 0xFFFF → s.config.stackCapacity = some N → N < S.length + 2 →
    exec (.add16 a b) s = .next { s with capacityFault := true }) ∧
  (∀ (a b : BitVec 32) (s : State) (S : Stack) (N : Nat), s.contexts[s.active]? = some (.live S) →
    a.toNat + b.toNat ≤ 0xFFFFFFFF → s.config.stackCapacity = some N → N < S.length + 4 →
    exec (.add32 a b) s = .next { s with capacityFault := true })

/-- 41_add.md R105 whole: what `execute` does with `00 00 aa bb` and with fewer bytes. -/
def Obligations.Add8Call : Prop :=
  ∀ (s : State) (c : Nat) (S : Stack) (rest : List HostMove) (a b : BitVec 8) (t short : List Byte),
    (s.Serves c S (.execute (0x00 :: 0x00 :: a :: b :: t)) rest → a.toNat + b.toNat ≤ 0xFF →
      (∀ N, s.config.stackCapacity = some N → S.length + 1 ≤ N) →
      step s = .next (s.afterValue c rest (S ++ [a + b]) (.delta ⟨4, 1⟩))) ∧
    (s.Serves c S (.execute (0x00 :: 0x00 :: a :: b :: t)) rest → 0xFF < a.toNat + b.toNat →
      step s = .next (s.afterError c rest (.arithmeticOverflow a.toNat b.toNat))) ∧
    (s.Serves c S (.execute (0x00 :: 0x00 :: short)) rest → short.length < 2 →
      step s = .next (s.afterError c rest (.instructionTooShort (some 0x0000) 4 (short.length + 2)))) ∧
    (s.Serves c S (.execute short) rest → short.length < 2 →
      step s = .next (s.afterError c rest (.instructionTooShort none 2 short.length)))

/-- 41_add.md R106: what `execute` does with the identifier of ADD16 where the width is present (the spec's parameters
92 D2, D4; log 2, 3). -/
def Obligations.Add16Call : Prop :=
  ∀ (s : State) (c : Nat) (S : Stack) (rest : List HostMove) (o a b : BitVec 16) (t short : List Byte),
    Width.w16 ∈ s.config.widths → o = s.config.opcAdd16 →
    (s.Serves c S (.execute (o.extractLsb' 8 8 :: o.extractLsb' 0 8 :: a.extractLsb' 8 8 :: a.extractLsb' 0 8 ::
        b.extractLsb' 8 8 :: b.extractLsb' 0 8 :: t)) rest →
      (a.toNat + b.toNat ≤ 0xFFFF → (∀ N, s.config.stackCapacity = some N → S.length + 2 ≤ N) →
        step s = .next (s.afterValue c rest
          (S ++ [(a + b).extractLsb' 8 8, (a + b).extractLsb' 0 8]) (.delta ⟨6, 2⟩))) ∧
      (0xFFFF < a.toNat + b.toNat →
        step s = .next (s.afterError c rest (.arithmeticOverflow a.toNat b.toNat)))) ∧
    (s.Serves c S (.execute (o.extractLsb' 8 8 :: o.extractLsb' 0 8 :: short)) rest → short.length < 4 →
      step s = .next (s.afterError c rest (.instructionTooShort (some o) 6 (short.length + 2))))

/-- 41_add.md R107: what `execute` does with the identifier of ADD32 where the width is present (the spec's parameters
92 D3, D4; log 2, 3). -/
def Obligations.Add32Call : Prop :=
  ∀ (s : State) (c : Nat) (S : Stack) (rest : List HostMove) (o : BitVec 16) (a b : BitVec 32) (t short : List Byte),
    Width.w32 ∈ s.config.widths → o = s.config.opcAdd32 →
    (s.Serves c S (.execute (o.extractLsb' 8 8 :: o.extractLsb' 0 8 ::
        a.extractLsb' 24 8 :: a.extractLsb' 16 8 :: a.extractLsb' 8 8 :: a.extractLsb' 0 8 ::
        b.extractLsb' 24 8 :: b.extractLsb' 16 8 :: b.extractLsb' 8 8 :: b.extractLsb' 0 8 :: t)) rest →
      (a.toNat + b.toNat ≤ 0xFFFFFFFF → (∀ N, s.config.stackCapacity = some N → S.length + 4 ≤ N) →
        step s = .next (s.afterValue c rest
          (S ++ [(a + b).extractLsb' 24 8, (a + b).extractLsb' 16 8, (a + b).extractLsb' 8 8, (a + b).extractLsb' 0 8])
          (.delta ⟨10, 4⟩))) ∧
      (0xFFFFFFFF < a.toNat + b.toNat →
        step s = .next (s.afterError c rest (.arithmeticOverflow a.toNat b.toNat)))) ∧
    (s.Serves c S (.execute (o.extractLsb' 8 8 :: o.extractLsb' 0 8 :: short)) rest → short.length < 8 →
      step s = .next (s.afterError c rest (.instructionTooShort (some o) 10 (short.length + 2))))

/-- 41_add.md R104: for every entry of the table, whatever bytes the operands are, a sum that fits is pushed at the
operand width, most-significant byte first, and the Delta is the entry's two lengths; these are R104's three. The
premise on the capacity is the exception R110 makes. -/
def Obligations.AddCommitsTheExactSum : Prop :=
  ∀ (s : State) (c : Nat) (S : Stack) (rest : List HostMove) (A B t : List Byte),
    ∀ d ∈ opcodeTable s.config,
    (d.mnemonic, d.minimumLength, d.operandWidth.bytes) ∈ [("ADD8", 4, 1), ("ADD16", 6, 2), ("ADD32", 10, 4)] ∧
    (A.length = d.operandWidth.bytes → B.length = d.operandWidth.bytes →
      s.Serves c S (.execute (d.id.extractLsb' 8 8 :: d.id.extractLsb' 0 8 :: (A ++ B ++ t))) rest →
      be A + be B ≤ 256 ^ d.operandWidth.bytes - 1 →
      (∀ N, s.config.stackCapacity = some N → S.length + d.operandWidth.bytes ≤ N) →
      step s = .next (s.afterValue c rest (S ++ bytesBe d.operandWidth.bytes (be A + be B))
        (.delta ⟨d.minimumLength, d.operandWidth.bytes⟩)))

/-- 41_add.md R103: for every entry of the table, a sum that does not fit is the error with the two operands as decode
assembled them, and nothing is pushed. -/
def Obligations.OverflowPushesNothing : Prop :=
  ∀ (s : State) (c : Nat) (S : Stack) (rest : List HostMove) (A B t : List Byte),
    ∀ d ∈ opcodeTable s.config, A.length = d.operandWidth.bytes → B.length = d.operandWidth.bytes →
    s.Serves c S (.execute (d.id.extractLsb' 8 8 :: d.id.extractLsb' 0 8 :: (A ++ B ++ t))) rest →
    256 ^ d.operandWidth.bytes - 1 < be A + be B →
    step s = .next (s.afterError c rest (.arithmeticOverflow (be A) (be B)))

/-- 41_add.md R102: the overflow condition is the carry out of the top bit of the `8*w`-bit addition, and it is
`a > MAX_w - b`. -/
def Obligations.OverflowIsTheCarryOut : Prop :=
  ∀ (w : Width) (a b : BitVec (8 * w.bytes)),
    (overflows w (a.toNat + b.toNat) = true ↔ BitVec.carry (8 * w.bytes) a b false = true) ∧
    (overflows w (a.toNat + b.toNat) = true ↔ w.maxValue - b.toNat < a.toNat)

/-- 41_add.md R108: exchanging the operands leaves the same state where the sum fits the width, and only the error's field
order differs where it does not; 0 is the identity. -/
def Obligations.AddIsCommutativeWithIdentityZero : Prop :=
  ∀ (w : Width) (a b : Nat) (s t : State), a < 256 ^ w.bytes → b < 256 ^ w.bytes →
    exec (instrOf .add w a b) s = .next t →
    (a + b < 256 ^ w.bytes → exec (instrOf .add w b a) s = .next t) ∧
    (256 ^ w.bytes ≤ a + b →
      t = { s with replies := (s.active, .error (.arithmeticOverflow a b)) :: s.replies } ∧
      exec (instrOf .add w b a) s =
        .next { s with replies := (s.active, .error (.arithmeticOverflow b a)) :: s.replies }) ∧
    (∀ S : Stack, s.contexts[s.active]? = some (.live S) → s.config.stackCapacity = none →
      exec (instrOf .add w a 0) s = .next { s with
        contexts := s.contexts.set s.active (.live (S ++ bytesBe w.bytes a))
        replies := (s.active, .value (.delta ⟨2 + 2 * w.bytes, w.bytes⟩)) :: s.replies })

/-- 41_add.md section 1: serving an `execute` request is the transition the pure function `execute(B, S)` describes,
which the statements below are about. The third clause (the mark is set, no reply is given, the block goes on) rests on
the spec's D5 and the model's reading of it (log 4). -/
def Obligations.StepServesExecuteAsTheFunction : Prop :=
  ∀ (s : State) (c : Nat) (S : Stack) (rest : List HostMove) (bytes : List Byte),
    s.Serves c S (.execute bytes) rest →
    (∀ T v, execute s.config bytes S = .done T v → step s = .next (s.afterValue c rest T v)) ∧
    (∀ e, execute s.config bytes S = .error e → step s = .next (s.afterError c rest e)) ∧
    (execute s.config bytes S = .capacityFault → step s = .next (s.afterCapacityFault c rest))

/-- 41_add.md R109: with an unbounded stack the result of `execute` does not depend on the stack, and it never reports
a stack underflow. -/
def Obligations.ExecuteNeverReadsTheStack : Prop :=
  ∀ (cfg : Config) (bytes : List Byte) (S T : Stack), cfg.stackCapacity = none →
    (∀ e, execute cfg bytes S = .error e → execute cfg bytes T = .error e ∧ ∀ x y, e ≠ .stackUnderflow x y) ∧
    (∀ S' v, execute cfg bytes S = .done S' v → ∃ x, S' = S ++ x ∧ execute cfg bytes T = .done (T ++ x) v)

/-- 41_add.md R110 and R111, 30_encoding.md R71: with an unbounded stack every call ends in exactly one of two ways, a
push of one present width with its Delta, or one of the three errors of `execute` with the payload of R120. -/
def Obligations.ExecuteEndsInResultOrError : Prop :=
  ∀ (cfg : Config) (bytes : List Byte) (S : Stack), cfg.stackCapacity = none →
    (∃ d ∈ opcodeTable cfg, ∃ v ≤ d.operandWidth.maxValue, d.minimumLength ≤ bytes.length ∧
      execute cfg bytes S =
        .done (S ++ bytesBe d.operandWidth.bytes v) (.delta ⟨d.minimumLength, d.operandWidth.bytes⟩)) ∨
    (∃ e, execute cfg bytes S = .error e ∧ errorOk e ∧ ∀ x y, e ≠ .stackUnderflow x y)

/-! ## The stack port -/

/-- 40_operand_stack.md R82. The premise on the capacity is the exception the rule makes. -/
def Obligations.Push8AppendsTheByte : Prop :=
  ∀ (s : State) (c : Nat) (S : Stack) (rest : List HostMove) (b : BitVec 8), s.Serves c S (.push8 b) rest →
    (∀ N, s.config.stackCapacity = some N → S.length + 1 ≤ N) →
    step s = .next (s.afterValue c rest (S ++ [b]) .pushed)

/-- 40_operand_stack.md R84: most-significant byte first, so the least-significant byte ends on top. -/
def Obligations.Push16AppendsTwoBytes : Prop :=
  ∀ (s : State) (c : Nat) (S : Stack) (rest : List HostMove) (v : BitVec 16), s.Serves c S (.push16 v) rest →
    (∀ N, s.config.stackCapacity = some N → S.length + 2 ≤ N) →
    step s = .next (s.afterValue c rest (S ++ [v.extractLsb' 8 8, v.extractLsb' 0 8]) .pushed)

/-- 40_operand_stack.md R86. -/
def Obligations.Push32AppendsFourBytes : Prop :=
  ∀ (s : State) (c : Nat) (S : Stack) (rest : List HostMove) (v : BitVec 32), s.Serves c S (.push32 v) rest →
    (∀ N, s.config.stackCapacity = some N → S.length + 4 ≤ N) →
    step s = .next (s.afterValue c rest
      (S ++ [v.extractLsb' 24 8, v.extractLsb' 16 8, v.extractLsb' 8 8, v.extractLsb' 0 8]) .pushed)

/-- 40_operand_stack.md R83: the top byte, or the underflow on an empty stack, which stays empty. -/
def Obligations.Pop8TakesTheTopByte : Prop :=
  ∀ (s : State) (c : Nat) (S : Stack) (rest : List HostMove), s.Serves c S .pop8 rest →
    (S = [] → step s = .next (s.afterError c rest (.stackUnderflow 1 0))) ∧
    (∀ T b, S = T ++ [b] → step s = .next (s.afterValue c rest T (.popped8 b)))

/-- 40_operand_stack.md R85. That a failing pop removes nothing is the spec's own choice D6 (R90, log 12). -/
def Obligations.Pop16TakesTheTopTwoBytes : Prop :=
  ∀ (s : State) (c : Nat) (S : Stack) (rest : List HostMove), s.Serves c S .pop16 rest →
    (S.length < 2 → step s = .next (s.afterError c rest (.stackUnderflow 2 S.length))) ∧
    (∀ (T : Stack) (second first : Byte), S = T ++ [second, first] →
      step s = .next (s.afterValue c rest T
        (.popped16 ((second.zeroExtend 16 <<< (8 : Nat)) ||| first.zeroExtend 16))))

/-- 40_operand_stack.md R87. That a failing pop removes nothing is the spec's own choice D6 (R90, log 12). -/
def Obligations.Pop32TakesTheTopFourBytes : Prop :=
  ∀ (s : State) (c : Nat) (S : Stack) (rest : List HostMove), s.Serves c S .pop32 rest →
    (S.length < 4 → step s = .next (s.afterError c rest (.stackUnderflow 4 S.length))) ∧
    (∀ (T : Stack) (p4 p3 p2 p1 : Byte), S = T ++ [p4, p3, p2, p1] →
      step s = .next (s.afterValue c rest T
        (.popped32 ((p4.zeroExtend 32 <<< (24 : Nat)) ||| (p3.zeroExtend 32 <<< (16 : Nat)) |||
          (p2.zeroExtend 32 <<< (8 : Nat)) ||| p1.zeroExtend 32))))

/-- 40_operand_stack.md R80 and 70_reset_and_hazards.md R141: after a `new()` of a context that already exists its stack
is empty. Reading R80's `S <- []` so for such a context is the model's choice (log 6). The `new()` that begins a context
is `Obligations.NewBeginsTheNextContext`. -/
def Obligations.NewLeavesAnEmptyStack : Prop :=
  ∀ (s : State) (c : Nat) (S : Stack) (rest : List HostMove), s.Serves c S .new rest →
    step s = .next (s.afterValue c rest [] .newStack)

/-- 40_operand_stack.md R81: the count in bytes; no stack changes. -/
def Obligations.LenCountsBytes : Prop :=
  ∀ (s : State) (c : Nat) (S : Stack) (rest : List HostMove), s.Serves c S .len rest →
    step s = .next { s with pending := rest, active := c, replies := (c, .value (.length S.length)) :: s.replies }

/-- 40_operand_stack.md R92 (the spec's D5, log 4): a push that would pass a finite capacity is not performed and sets the
mark; no reply is given. -/
def Obligations.PushPastCapacitySetsTheMark : Prop :=
  ∀ (s : State) (c : Nat) (S : Stack) (rest : List HostMove) (N : Nat), s.config.stackCapacity = some N →
    (∀ b, s.Serves c S (.push8 b) rest → N < S.length + 1 → step s = .next (s.afterCapacityFault c rest)) ∧
    (∀ v, s.Serves c S (.push16 v) rest → N < S.length + 2 → step s = .next (s.afterCapacityFault c rest)) ∧
    (∀ v, s.Serves c S (.push32 v) rest → N < S.length + 4 → step s = .next (s.afterCapacityFault c rest))

/-- 40_operand_stack.md R88 and R89: a push and the pop of its width, one after the other, return the value and restore
the whole stack. The premise on the capacity is the exception R82, R84 and R86 make. -/
def Obligations.PopAfterPushReturnsTheValue : Prop :=
  ∀ (s : State) (c : Nat) (S : Stack) (rest : List HostMove),
    (∀ v : BitVec 8, s.Serves c S (.push8 v) (.request c .pop8 :: rest) →
      (∀ N, s.config.stackCapacity = some N → S.length + 1 ≤ N) →
      core.run 2 s = .next { s with
        pending := rest, active := c
        replies := (c, .value (.popped8 v)) :: (c, .value .pushed) :: s.replies }) ∧
    (∀ v : BitVec 16, s.Serves c S (.push16 v) (.request c .pop16 :: rest) →
      (∀ N, s.config.stackCapacity = some N → S.length + 2 ≤ N) →
      core.run 2 s = .next { s with
        pending := rest, active := c
        replies := (c, .value (.popped16 v)) :: (c, .value .pushed) :: s.replies }) ∧
    (∀ v : BitVec 32, s.Serves c S (.push32 v) (.request c .pop32 :: rest) →
      (∀ N, s.config.stackCapacity = some N → S.length + 4 ≤ N) →
      core.run 2 s = .next { s with
        pending := rest, active := c
        replies := (c, .value (.popped32 v)) :: (c, .value .pushed) :: s.replies })

/-- 40_operand_stack.md R91, 20_memory.md R42: pops of another width than the pushes see the raw bytes, low half first. -/
def Obligations.MixedWidthPopsSeeRawBytes : Prop :=
  ∀ (s : State) (c : Nat) (S : Stack) (rest : List HostMove), s.config.stackCapacity = none →
    (∀ v : BitVec 32, s.Serves c S (.push32 v) (.request c .pop16 :: .request c .pop16 :: rest) →
      core.run 3 s = .next { s with
        pending := rest, active := c
        replies := (c, .value (.popped16 (v.extractLsb' 16 16))) :: (c, .value (.popped16 (v.extractLsb' 0 16))) ::
          (c, .value .pushed) :: s.replies }) ∧
    (∀ v : BitVec 16, s.Serves c S (.push16 v) (.request c .pop8 :: .request c .pop8 :: rest) →
      core.run 3 s = .next { s with
        pending := rest, active := c
        replies := (c, .value (.popped8 (v.extractLsb' 8 8))) :: (c, .value (.popped8 (v.extractLsb' 0 8))) ::
          (c, .value .pushed) :: s.replies }) ∧
    (∀ a b : BitVec 8, s.Serves c S (.push8 a) (.request c (.push8 b) :: .request c .pop16 :: rest) →
      core.run 3 s = .next { s with
        pending := rest, active := c
        replies := (c, .value (.popped16 (a ++ b))) :: (c, .value .pushed) :: (c, .value .pushed) :: s.replies })

/-- 70_reset_and_hazards.md R144: a pop right after a successful `execute` returns its result, at every width. -/
def Obligations.PopAfterExecuteReturnsTheSum : Prop :=
  ∀ (s : State) (c : Nat) (S : Stack) (rest : List HostMove), s.config.stackCapacity = none →
    (∀ a b : BitVec 8, s.Serves c S (.execute (encode s.config (.add8 a b))) (.request c .pop8 :: rest) →
      a.toNat + b.toNat ≤ 0xFF →
      core.run 2 s = .next { s with
        pending := rest, active := c
        replies := (c, .value (.popped8 (a + b))) :: (c, .value (.delta ⟨4, 1⟩)) :: s.replies }) ∧
    (∀ a b : BitVec 16, Width.w16 ∈ s.config.widths →
      s.Serves c S (.execute (encode s.config (.add16 a b))) (.request c .pop16 :: rest) →
      a.toNat + b.toNat ≤ 0xFFFF →
      core.run 2 s = .next { s with
        pending := rest, active := c
        replies := (c, .value (.popped16 (a + b))) :: (c, .value (.delta ⟨6, 2⟩)) :: s.replies }) ∧
    (∀ a b : BitVec 32, Width.w32 ∈ s.config.widths →
      s.Serves c S (.execute (encode s.config (.add32 a b))) (.request c .pop32 :: rest) →
      a.toNat + b.toNat ≤ 0xFFFFFFFF →
      core.run 2 s = .next { s with
        pending := rest, active := c
        replies := (c, .value (.popped32 (a + b))) :: (c, .value (.delta ⟨10, 4⟩)) :: s.replies })

/-! ## Every request -/

/-- 60_exceptions.md R126 and R129: a request of a context that exists always ends, with exactly one reply; only with a
finite capacity may it end with the mark instead, and then nothing else changes (the spec's D5, log 4). -/
def Obligations.EveryRequestEnds : Prop :=
  ∀ (s : State) (c : Nat) (S : Stack) (r : Request) (rest : List HostMove), s.Serves c S r rest →
    ∃ t, step s = .next t ∧ t.pending = rest ∧
      ((∃ rep, t.replies = (c, rep) :: s.replies ∧ t.capacityFault = s.capacityFault) ∨
       (s.config.stackCapacity ≠ none ∧ t = s.afterCapacityFault c rest))

/-- 60_exceptions.md R125: where the reply of a request is an error, every stack is exactly as before. For the pops this
is the spec's own choice D6 (log 12). -/
def Obligations.FailureLeavesEveryStack : Prop :=
  ∀ (s t : State) (c : Nat) (r : Request) (rest : List HostMove) (e : Error),
    s.pending = .request c r :: rest → step s = .next t → t.replies = (c, .error e) :: s.replies →
    t = s.afterError c rest e

/-- 10_state.md R27: only the owner's requests read or change a stack. Two machines that agree on the configuration and
on context `c`'s stack give `c` the same reply and the same new stack, whatever all the other stacks are; and
every other context keeps its own. The owner exists here; the `new()` that begins a context changes no other one by
`Obligations.NewBeginsTheNextContext`. -/
def Obligations.OnlyTheOwnerReadsOrChangesAStack : Prop :=
  ∀ (s s' t : State) (c : Nat) (S : Stack) (r : Request) (rest rest' : List HostMove),
    s.Serves c S r rest → s'.Serves c S r rest' → s.config = s'.config → step s = .next t →
    (∀ c', c' ≠ c → t.contexts[c']? = s.contexts[c']?) ∧
    ∃ t', step s' = .next t' ∧ t'.contexts[c]? = t.contexts[c]? ∧
      ∃ new, t.replies = new ++ s.replies ∧ t'.replies = new ++ s'.replies ∧ ∀ x ∈ new, x.1 = c

/-- 20_memory.md R50: requests of two contexts have no ordering between them: in either order they leave the same stacks
and mark, and each context gets the same replies. -/
def Obligations.RequestsOfTwoContextsCommute : Prop :=
  ∀ (s t u : State) (c d : Nat) (S T : Stack) (r q : Request) (rest : List HostMove), c ≠ d →
    configOk s.config = true → s.contexts[c]? = some (.live S) → s.contexts[d]? = some (.live T) →
    core.run 2 { s with pending := .request c r :: .request d q :: rest } = .next t →
    core.run 2 { s with pending := .request d q :: .request c r :: rest } = .next u →
    t.contexts = u.contexts ∧ t.capacityFault = u.capacityFault ∧ t.config = u.config ∧ t.pending = u.pending ∧
    ∀ x, t.repliesOf x = u.repliesOf x

/-- 70_reset_and_hazards.md R148: a queue of requests of contexts that exist is served to its end, one step each, with no
fault and no refusal, and the contexts all still exist. -/
def Obligations.EveryQueuedRequestIsServed : Prop :=
  ∀ s : State, configOk s.config = true → s.onlyLiveRequests →
    ∃ t, core.run s.pending.length s = .next t ∧ t.pending = [] ∧ ∀ c, s.isLive c ↔ t.isLive c

/-- 10_state.md R21 ("dispatch is stateless across calls except for the externally owned stack") and R32: nothing the
block returned earlier affects a step. The list of replies is the model's own field (log 9). -/
def Obligations.EarlierRepliesAffectNothing : Prop :=
  ∀ (s t : State) (others : List (Nat × Reply)), step s = .next t →
    ∃ new, t.replies = new ++ s.replies ∧
      step { s with replies := others } = .next { t with replies := new ++ others }

/-- 10_state.md R23: no transition writes a parameter, so the opcode table never changes (R29). That the parameters are a
field of State is the model's choice (log 1). -/
def Obligations.ConfigurationNeverChanges : Prop :=
  ∀ s t : State, step s = .next t → t.config = s.config ∧ opcodeTable t.config = opcodeTable s.config

/-- 10_state.md R33 (the spec's D5, log 4): the mark is sticky: only a reset clears it. -/
def Obligations.CapacityMarkIsSticky : Prop :=
  ∀ s t : State, step s = .next t → s.capacityFault = true → (∀ rest, s.pending ≠ .reset :: rest) →
    t.capacityFault = true

/-- 10_state.md R25 and 70_reset_and_hazards.md R141: a request other than `new` only appends at the top or removes from
the top, at most 4 bytes, and none but a pop empties a stack that was not empty. -/
def Obligations.StackChangesOnlyAtTheTop : Prop :=
  ∀ (s t : State) (c : Nat) (S : Stack) (r : Request) (rest : List HostMove), s.Serves c S r rest → r ≠ .new →
    step s = .next t →
    ∃ T, t.contexts[c]? = some (.live T) ∧ (S <+: T ∨ T <+: S) ∧
      T.length ≤ S.length + 4 ∧ S.length ≤ T.length + 4 ∧
      (S ≠ [] → T = [] → r = .pop8 ∨ r = .pop16 ∨ r = .pop32)

/-! ## Contexts, reset, configurations -/

/-- 70_reset_and_hazards.md R140 (the spec's D13): a reset empties every stack, clears the mark and keeps the table. That
an ended context stays ended and the queue and the replies stay is the model's choice (log 14). -/
def Obligations.ResetEmptiesEveryStack : Prop :=
  ∀ (s : State) (rest : List HostMove), configOk s.config = true → s.pending = .reset :: rest →
    ∃ t, step s = .next t ∧ t.capacityFault = false ∧ t.config = s.config ∧ t.pending = rest ∧
      t.replies = s.replies ∧ t.contexts.length = s.contexts.length ∧
      (∀ (c : Nat) (S : Stack), s.contexts[c]? = some (.live S) → t.contexts[c]? = some (.live [])) ∧
      (∀ c : Nat, s.contexts[c]? = some .ended → t.contexts[c]? = some .ended)

/-- 70_reset_and_hazards.md R143 (the spec's D25, log 7): a context that ends loses its stack and nothing else changes;
after that none of its moves has a step. -/
def Obligations.EndedContextHasNoStep : Prop :=
  ∀ (s : State) (c : Nat) (rest : List HostMove), configOk s.config = true →
    (∀ S : Stack, s.contexts[c]? = some (.live S) → s.pending = .endContext c :: rest →
      step s = .next { s with pending := rest, contexts := s.contexts.set c .ended }) ∧
    (∀ r, s.contexts[c]? = some .ended → s.pending = .request c r :: rest → step s = .fault (.contextEnded c)) ∧
    (s.contexts[c]? = some .ended → s.pending = .endContext c :: rest → step s = .fault (.contextEnded c))

/-- 60_exceptions.md R134 and 70_reset_and_hazards.md R142: `new()` begins the next context with an empty stack while
fewer than `N_CONTEXTS` exist. That contexts are numbered and counted so is the model's choice (log 5, 6). That every
other request of a context that never began is refused with `noSuchContext` is the model's choice too (log 7): R142
says only that `new()` comes before a context's first request. -/
def Obligations.NewBeginsTheNextContext : Prop :=
  ∀ (s : State) (c : Nat) (rest : List HostMove), configOk s.config = true →
    (s.pending = .request s.contexts.length .new :: rest →
      (∀ N, s.config.nContexts = some N → liveCount s.contexts < N) →
      step s = .next { s with
        pending := rest, active := s.contexts.length
        contexts := s.contexts ++ [.live []]
        replies := (s.contexts.length, .value .newStack) :: s.replies }) ∧
    (∀ N, s.pending = .request s.contexts.length .new :: rest → s.config.nContexts = some N →
      N ≤ liveCount s.contexts → step s = .refused .tooManyContexts) ∧
    (∀ r, s.contexts.length ≤ c → s.pending = .request c r :: rest → (r ≠ .new ∨ c ≠ s.contexts.length) →
      step s = .refused (.noSuchContext c))

/-- 00_scope.md R7: a configuration in which two identifiers coincide is refused. -/
def Obligations.CoincidingIdentifiersAreRefused : Prop :=
  ∀ s : State, (s.config.opcAdd16 = 0x0000 ∨ s.config.opcAdd32 = 0x0000 ∨ s.config.opcAdd16 = s.config.opcAdd32) →
    step s = .refused .badConfiguration

/-! ## The reference host driver -/

/-- 60_exceptions.md R136 (the spec's D7): `run` is the loop of the rule, whatever number of calls it takes. The end at
a capacity fault is the model's choice (log 19). -/
def Obligations.DriverIsTheLoop : Prop :=
  ∀ (cfg : Config) (P : List Byte) (S : Stack),
    run cfg [] S = some ⟨.done, [], S⟩ ∧
    (P ≠ [] →
      (∀ e, execute cfg P S = .error e → run cfg P S = some ⟨.error e, P, S⟩) ∧
      (execute cfg P S = .capacityFault → run cfg P S = some ⟨.capacityFault, P, S⟩) ∧
      (∀ T d, execute cfg P S = .done T (.delta d) → run cfg P S = run cfg (P.drop d.instBytesConsumed) T))

/-- 60_exceptions.md R136 (the spec's D7): every run ends; `Done` is with no byte left; an error is that of the first
failing instruction, with which the unconsumed bytes begin and on the stack the failed call left; results are only added on
top. -/
def Obligations.DriverRunEnds : Prop :=
  ∀ (cfg : Config) (P : List Byte) (S : Stack), ∃ x, run cfg P S = some x ∧
    S <+: x.stack ∧ x.rest <:+ P ∧ (x.outcome = .done → x.rest = []) ∧
    (∀ e, x.outcome = .error e → x.rest ≠ [] ∧ execute cfg x.rest x.stack = .error e) ∧
    (x.outcome = .capacityFault → cfg.stackCapacity ≠ none)
end

