-- ==== Sys2Proof/Laws/Bytes.lean ====
section
/-! SUPPORT. The byte-order helpers: lengths and inverses. -/

namespace Sys2Proof.Machine

@[simp] theorem bytesBe_length (n v : Nat) : (bytesBe n v).length = n := by
  induction n with
  | zero => rfl
  | succ n ih => simp [bytesBe, ih]

@[simp] theorem be_nil : be [] = 0 := rfl

theorem be_cons (b : Byte) (t : List Byte) : be (b :: t) = b.toNat * 256 ^ t.length + be t := rfl

theorem be_lt (s : List Byte) : be s < 256 ^ s.length := by
  induction s with
  | nil => simp
  | cons b t ih =>
    have hb := b.isLt
    have h1 : (b.toNat + 1) * 256 ^ t.length ≤ 256 * 256 ^ t.length :=
      Nat.mul_le_mul_right _ (by omega)
    simp only [be_cons, List.length_cons, pow_succ]
    rw [Nat.add_mul] at h1
    omega

/-- The bytes of a value, read back, give the value at its width. -/
theorem be_bytesBe (n v : Nat) : be (bytesBe n v) = v % 256 ^ n := by
  induction n with
  | zero => simp [bytesBe, Nat.mod_one]
  | succ n ih =>
    simp only [bytesBe, be_cons, bytesBe_length, ih, BitVec.toNat_ofNat]
    rw [pow_succ 256 n, Nat.mod_mul (x := v) (a := 256 ^ n) (b := 256), show (2 : Nat) ^ 8 = 256 from rfl]
    ring

theorem be_bytesBe_of_lt {n v : Nat} (h : v < 256 ^ n) : be (bytesBe n v) = v := by
  rw [be_bytesBe, Nat.mod_eq_of_lt h]

theorem bytesBe_be_add (s : List Byte) (k : Nat) : bytesBe s.length (k * 256 ^ s.length + be s) = s := by
  induction s generalizing k with
  | nil => rfl
  | cons b t ih =>
    have hlt := be_lt t
    have hpos : 0 < 256 ^ t.length := by positivity
    have e : k * 256 ^ (b :: t).length + be (b :: t)
        = (k * 256 + b.toNat) * 256 ^ t.length + be t := by
      simp only [be_cons, List.length_cons, pow_succ]; ring
    have hdiv : ((k * 256 + b.toNat) * 256 ^ t.length + be t) / 256 ^ t.length = k * 256 + b.toNat := by
      rw [Nat.mul_comm, Nat.mul_add_div hpos, Nat.div_eq_of_lt hlt, Nat.add_zero]
    rw [e]
    simp only [List.length_cons, bytesBe, ih, hdiv]
    congr 1
    apply BitVec.eq_of_toNat_eq
    have := b.isLt
    simp only [BitVec.toNat_ofNat]
    omega

/-- The value of a byte sequence, laid out at its length, gives the sequence. -/
theorem bytesBe_be (s : List Byte) : bytesBe s.length (be s) = s := by
  simpa using bytesBe_be_add s 0

theorem slice_length (s : List Byte) (i j : Nat) : (slice s i j).length = min j s.length - i := by
  simp [slice]

end Sys2Proof.Machine
end

