-- ==== Sys2Proof/Laws/Decode.lean ====
section
/-! SUPPORT. The opcode table, and everything decode can answer. -/

namespace Sys2Proof.Machine

/-- Every entry of the table is the row of a present width. -/
theorem opcodeTable_mem {cfg : Config} {d : Descriptor} (h : d ∈ opcodeTable cfg) :
    ∃ w ∈ cfg.widths, d = descriptorOf cfg w := by
  obtain ⟨w, hw, rfl⟩ := List.mem_map.mp h
  exact ⟨w, hw, rfl⟩

@[simp] theorem descriptorOf_operandWidth (cfg : Config) (w : Width) : (descriptorOf cfg w).operandWidth = w := by
  cases w <;> rfl

@[simp] theorem descriptorOf_minimumLength (cfg : Config) (w : Width) :
    (descriptorOf cfg w).minimumLength = minLen w := by
  cases w <;> rfl

@[simp] theorem descriptorOf_operation (cfg : Config) (w : Width) : (descriptorOf cfg w).operation = .add := by
  cases w <;> rfl

@[simp] theorem instrOf_width (op : AluOp) (w : Width) (a b : Nat) : (instrOf op w a b).width = w := by
  cases op; cases w <;> rfl

/-- A lookup that finds an entry finds the row of a present width, with the identifier asked for. -/
theorem lookup_some {cfg : Config} {id : OpcodeId} {d : Descriptor} (h : lookup cfg id = some d) :
    ∃ w ∈ cfg.widths, d = descriptorOf cfg w ∧ (descriptorOf cfg w).id = id := by
  obtain ⟨w, hw, rfl⟩ := opcodeTable_mem (List.mem_of_find?_eq_some h)
  exact ⟨w, hw, rfl, by simpa using List.find?_some h⟩

/-- Where decode answers an instruction: its width is present, its identifier was found, the bytes suffice, and its
operands are the two fields. -/
theorem decode_ok {cfg : Config} {bytes : List Byte} {i : Instr} (h : decode cfg bytes = .ok i) :
    2 ≤ bytes.length ∧ i.width ∈ cfg.widths ∧
    lookup cfg (opcodeField bytes) = some (descriptorOf cfg i.width) ∧ minLen i.width ≤ bytes.length ∧
    i = instrOf .add i.width (addend1Field i.width bytes) (addend2Field i.width bytes) := by
  unfold decode at h
  split at h
  · cases h
  · rename_i hl
    split at h
    · cases h
    · rename_i d hd
      obtain ⟨w, hw, rfl, -⟩ := lookup_some hd
      split at h
      · cases h
      · rename_i hm
        cases h
        simp only [descriptorOf_operandWidth, descriptorOf_minimumLength, descriptorOf_operation, instrOf_width] at *
        exact ⟨Nat.not_lt.mp hl, hw, hd, Nat.not_lt.mp hm, trivial⟩

/-- Where decode answers an error, it is one of three, in the order of the checks. -/
theorem decode_error {cfg : Config} {bytes : List Byte} {e : Error} (h : decode cfg bytes = .error e) :
    (bytes.length < 2 ∧ e = .instructionTooShort none 2 bytes.length) ∨
    (2 ≤ bytes.length ∧ lookup cfg (opcodeField bytes) = none ∧ e = .unknownOpcode (opcodeField bytes)) ∨
    (2 ≤ bytes.length ∧ ∃ w ∈ cfg.widths, lookup cfg (opcodeField bytes) = some (descriptorOf cfg w) ∧
      bytes.length < minLen w ∧
      e = .instructionTooShort (some (opcodeField bytes)) (minLen w) bytes.length) := by
  unfold decode at h
  split at h
  · rename_i hl
    cases h
    exact .inl ⟨hl, rfl⟩
  · rename_i hl
    split at h
    · rename_i hn
      cases h
      exact .inr (.inl ⟨Nat.not_lt.mp hl, hn, rfl⟩)
    · rename_i d hd
      obtain ⟨w, hw, rfl, -⟩ := lookup_some hd
      split at h
      · rename_i hm
        cases h
        simp only [descriptorOf_minimumLength] at *
        exact .inr (.inr ⟨Nat.not_lt.mp hl, w, hw, hd, hm, rfl⟩)
      · cases h

/-- The context `firstLive` finds exists. -/
theorem firstLive_some {cs : List Context} {c : Nat} (h : firstLive cs = some c) : ∃ S, cs[c]? = some (.live S) := by
  induction cs generalizing c with
  | nil => cases h
  | cons x xs ih =>
    cases x with
    | live S => cases h; exact ⟨S, rfl⟩
    | ended =>
      simp only [firstLive, Option.map_eq_some_iff] at h
      obtain ⟨k, hk, rfl⟩ := h
      simpa using ih hk

end Sys2Proof.Machine
end

