-- ==== Sys2Proof/Laws/State.lean ====
section
/-! SUPPORT. One lemma per field per update of the state. -/

namespace Sys2Proof.Machine

variable (s : State) (S : Stack) (r : Reply) (e : Error) (c : Nat) (rest : List HostMove)

@[simp] theorem putStack_config : (s.putStack S).config = s.config := rfl
@[simp] theorem putStack_contexts : (s.putStack S).contexts = s.contexts.set s.active (.live S) := rfl
@[simp] theorem putStack_capacityFault : (s.putStack S).capacityFault = s.capacityFault := rfl
@[simp] theorem putStack_pending : (s.putStack S).pending = s.pending := rfl
@[simp] theorem putStack_replies : (s.putStack S).replies = s.replies := rfl
@[simp] theorem putStack_active : (s.putStack S).active = s.active := rfl

@[simp] theorem answer_config : (s.answer r).config = s.config := rfl
@[simp] theorem answer_contexts : (s.answer r).contexts = s.contexts := rfl
@[simp] theorem answer_capacityFault : (s.answer r).capacityFault = s.capacityFault := rfl
@[simp] theorem answer_pending : (s.answer r).pending = s.pending := rfl
@[simp] theorem answer_replies : (s.answer r).replies = (s.active, r) :: s.replies := rfl
@[simp] theorem answer_active : (s.answer r).active = s.active := rfl

@[simp] theorem raise_config : (s.raise e).config = s.config := rfl
@[simp] theorem raise_contexts : (s.raise e).contexts = s.contexts := rfl
@[simp] theorem raise_capacityFault : (s.raise e).capacityFault = s.capacityFault := rfl
@[simp] theorem raise_pending : (s.raise e).pending = s.pending := rfl
@[simp] theorem raise_replies : (s.raise e).replies = (s.active, .error e) :: s.replies := rfl
@[simp] theorem raise_active : (s.raise e).active = s.active := rfl

@[simp] theorem markCapacity_config : s.markCapacity.config = s.config := rfl
@[simp] theorem markCapacity_contexts : s.markCapacity.contexts = s.contexts := rfl
@[simp] theorem markCapacity_capacityFault : s.markCapacity.capacityFault = true := rfl
@[simp] theorem markCapacity_pending : s.markCapacity.pending = s.pending := rfl
@[simp] theorem markCapacity_replies : s.markCapacity.replies = s.replies := rfl
@[simp] theorem markCapacity_active : s.markCapacity.active = s.active := rfl

@[simp] theorem beginContext_config : s.beginContext.config = s.config := rfl
@[simp] theorem beginContext_contexts : s.beginContext.contexts = s.contexts ++ [.live []] := rfl
@[simp] theorem beginContext_capacityFault : s.beginContext.capacityFault = s.capacityFault := rfl
@[simp] theorem beginContext_pending : s.beginContext.pending = s.pending := rfl
@[simp] theorem beginContext_replies : s.beginContext.replies = s.replies := rfl
@[simp] theorem beginContext_active : s.beginContext.active = s.active := rfl

@[simp] theorem accept_config : (s.accept c rest).config = s.config := rfl
@[simp] theorem accept_contexts : (s.accept c rest).contexts = s.contexts := rfl
@[simp] theorem accept_capacityFault : (s.accept c rest).capacityFault = s.capacityFault := rfl
@[simp] theorem accept_pending : (s.accept c rest).pending = rest := rfl
@[simp] theorem accept_replies : (s.accept c rest).replies = s.replies := rfl
@[simp] theorem accept_active : (s.accept c rest).active = c := rfl

@[simp] theorem resetBlock_config : (resetBlock s).config = s.config := rfl
@[simp] theorem resetBlock_contexts : (resetBlock s).contexts = s.contexts.map Context.afterReset := rfl
@[simp] theorem resetBlock_capacityFault : (resetBlock s).capacityFault = false := rfl
@[simp] theorem resetBlock_pending : (resetBlock s).pending = s.pending := rfl
@[simp] theorem resetBlock_replies : (resetBlock s).replies = s.replies := rfl
@[simp] theorem resetBlock_active : (resetBlock s).active = 0 := rfl

end Sys2Proof.Machine
end

