-- ==== Sys2Proof/Laws/Ops.lean ====
section
/-! SUPPORT. For each shared operation, one lemma that says once everything it can do. -/

namespace Sys2Proof.Machine

/-- A request over the active stack: where it answers a next state, the context exists and the state is settled. -/
theorem onStack_next {s t : State} {op : Stack → Result} (h : s.onStack op = .next t) :
    ∃ S, s.contexts[s.active]? = some (.live S) ∧ t = s.settle (op S) := by
  unfold State.onStack at h
  split at h
  · rename_i S hS
    exact ⟨S, hS, by simpa using h.symm⟩
  · cases h
  · cases h

/-- A request over the stack of a context that exists always answers a next state. -/
theorem onStack_live {s : State} {S : Stack} (op : Stack → Result)
    (h : s.contexts[s.active]? = some (.live S)) : s.onStack op = .next (s.settle (op S)) := by
  simp only [State.onStack, h]

/-- A push appends its bytes, or passes the capacity and changes nothing. -/
theorem pushOp_cases (cap : Option Nat) (w : Width) (v : Nat) (a : Value) (S : Stack) :
    (fits cap S w.bytes = true ∧ pushOp cap w v a S = .done (S ++ bytesBe w.bytes v) a) ∨
    (fits cap S w.bytes = false ∧ pushOp cap w v a S = .capacityFault) := by
  unfold pushOp
  cases h : fits cap S w.bytes <;> simp

/-- A pop underflows, or splits the stack into what stays and the bytes it reads. -/
theorem popOp_cases (w : Width) (a : Nat → Value) (S : Stack) :
    (S.length < w.bytes ∧ popOp w a S = .error (.stackUnderflow w.bytes S.length)) ∨
    (∃ T t, S = T ++ t ∧ t.length = w.bytes ∧ popOp w a S = .done T (a (be t))) := by
  unfold popOp
  by_cases h : S.length < w.bytes
  · exact .inl ⟨h, if_pos h⟩
  · refine .inr ⟨S.take (S.length - w.bytes), S.drop (S.length - w.bytes), ?_, ?_, if_neg h⟩
    · exact (List.take_append_drop _ _).symm
    · simp only [List.length_drop]; omega

/-- The ALU overflows, or gives the exact sum. -/
theorem alu_cases (op : AluOp) (w : Width) (a b : Nat) :
    (w.maxValue < a + b ∧ alu op w a b = .error (.arithmeticOverflow a b)) ∨
    (a + b ≤ w.maxValue ∧ alu op w a b = .ok (a + b)) := by
  cases op
  unfold alu overflows
  by_cases h : w.maxValue < a + b
  · exact .inl ⟨h, by simp [h]⟩
  · exact .inr ⟨by omega, by simp [h]⟩

/-- The three ends of an add. -/
theorem dispatchOp_cases (cap : Option Nat) (op : AluOp) (w : Width) (len a b : Nat) (S : Stack) :
    (w.maxValue < a + b ∧ dispatchOp cap op w len a b S = .error (.arithmeticOverflow a b)) ∨
    (a + b ≤ w.maxValue ∧ fits cap S w.bytes = true ∧
      dispatchOp cap op w len a b S = .done (S ++ bytesBe w.bytes (a + b)) (.delta ⟨len, w.bytes⟩)) ∨
    (a + b ≤ w.maxValue ∧ fits cap S w.bytes = false ∧ dispatchOp cap op w len a b S = .capacityFault) := by
  unfold dispatchOp
  rcases alu_cases op w a b with ⟨h, e⟩ | ⟨h, e⟩
  · exact .inl ⟨h, by rw [e]⟩
  · rcases pushOp_cases cap w (a + b) (.delta ⟨len, w.bytes⟩) S with ⟨f, p⟩ | ⟨f, p⟩
    · exact .inr (.inl ⟨h, f, by rw [e]; exact p⟩)
    · exact .inr (.inr ⟨h, f, by rw [e]; exact p⟩)

/-- An instruction runs on the active context's stack as `executeInstr` says. -/
theorem exec_eq_onStack (i : Instr) (s : State) : exec i s = s.onStack (executeInstr s.config i) := by
  cases i <;> rfl

/-- A call of `execute` runs on the active context's stack as the pure function says. -/
theorem requestExecute_eq_onStack (bytes : List Byte) (s : State) :
    requestExecute bytes s = s.onStack (execute s.config bytes) := by
  unfold requestExecute
  cases h : decode s.config bytes with
  | ok i =>
    simp only [exec_eq_onStack]
    congr 1
    funext S
    simp [execute, h]
  | error e =>
    simp only
    congr 1
    funext S
    simp [execute, h]

/-- What one request does to the stack, as a function of it. `new` on a context that exists empties it. -/
def requestOp (cfg : Config) : Request → Stack → Result
  | .new, _ => .done [] .newStack
  | .len, S => .done S (.length S.length)
  | .push8 b, S => pushOp cfg.stackCapacity .w8 b.toNat .pushed S
  | .pop8, S => popOp .w8 (fun v => .popped8 (BitVec.ofNat 8 v)) S
  | .push16 v, S => pushOp cfg.stackCapacity .w16 v.toNat .pushed S
  | .pop16, S => popOp .w16 (fun v => .popped16 (BitVec.ofNat 16 v)) S
  | .push32 v, S => pushOp cfg.stackCapacity .w32 v.toNat .pushed S
  | .pop32, S => popOp .w32 (fun v => .popped32 (BitVec.ofNat 32 v)) S
  | .execute bytes, S => execute cfg bytes S

/-- Every request of a context that exists answers the next state that its stack function gives. -/
theorem serveRequest_live {s : State} {S : Stack} (r : Request)
    (h : s.contexts[s.active]? = some (.live S)) :
    serveRequest r s = .next (s.settle (requestOp s.config r S)) := by
  cases r with
  | new => simp only [serveRequest, requestNew, h]; rfl
  | execute bytes => simp only [serveRequest, requestExecute_eq_onStack, onStack_live _ h]; rfl
  | _ => exact onStack_live _ h

/-- Every way a request answers a next state: its context exists, or it is a `new` that begins the next one. -/
theorem serveRequest_next {s t : State} {r : Request} (h : serveRequest r s = .next t) :
    (∃ S, s.contexts[s.active]? = some (.live S) ∧ t = s.settle (requestOp s.config r S)) ∨
    (r = .new ∧ s.active = s.contexts.length ∧ roomForContext s.config s.contexts = true ∧
      t = s.beginContext.answer (.value .newStack)) := by
  cases hc : s.contexts[s.active]? with
  | some x =>
    cases x with
    | live S =>
      rw [serveRequest_live r hc] at h
      exact .inl ⟨S, rfl, by simpa using h.symm⟩
    | ended =>
      cases r with
      | execute bytes => simp [serveRequest, requestExecute_eq_onStack, State.onStack, hc] at h
      | new => simp [serveRequest, requestNew, hc] at h
      | _ => simp [serveRequest, requestLen, requestPush8, requestPop8, requestPush16, requestPop16,
          requestPush32, requestPop32, State.onStack, hc] at h
  | none =>
    cases r with
    | new =>
      simp only [serveRequest, requestNew, hc] at h
      split at h
      · split at h
        · rename_i ha hr
          exact .inr ⟨rfl, ha, hr, by simpa using h.symm⟩
        · cases h
      · cases h
    | execute bytes => simp [serveRequest, requestExecute_eq_onStack, State.onStack, hc] at h
    | _ => simp [serveRequest, requestLen, requestPush8, requestPop8, requestPush16, requestPop16,
        requestPush32, requestPop32, State.onStack, hc] at h

/-- Every way the end of a context answers a next state. -/
theorem endContext_next {s t : State} {c : Nat} (h : endContext c s = .next t) :
    ∃ S, s.contexts[c]? = some (.live S) ∧ t = { s with contexts := s.contexts.set c .ended } := by
  unfold endContext at h
  split at h
  · rename_i S hS
    exact ⟨S, hS, by simpa using h.symm⟩
  · cases h
  · cases h

end Sys2Proof.Machine
end

