-- ==== Sys2Proof/Laws/PerInstr.lean ====
section
/-! SUPPORT. Statements about every instruction as syntax, one lemma per constructor. -/

namespace Sys2Proof.Laws.EncodeLength

open Sys2Proof.Machine

/-- An instruction's encoding has its `minimum_length` (10_state.md R30: `2 + 2*w`). -/
def Statement (i : Instr) : Prop := ∀ cfg : Config, (encode cfg i).length = minLen i.width

theorem add8 (a b : BitVec 8) : Statement (.add8 a b) := by
  intro cfg; simp [encode, layFields, minLen, opcodeBytes, Instr.width, Width.bytes]

theorem add16 (a b : BitVec 16) : Statement (.add16 a b) := by
  intro cfg; simp [encode, layFields, minLen, opcodeBytes, Instr.width, Width.bytes]

theorem add32 (a b : BitVec 32) : Statement (.add32 a b) := by
  intro cfg; simp [encode, layFields, minLen, opcodeBytes, Instr.width, Width.bytes]

end Sys2Proof.Laws.EncodeLength
end

