-- ==== Sys2Proof/Laws/Step.lean ====
section
/-! SUPPORT. Everything one step can do, and what settling a request leaves unchanged. -/

namespace Sys2Proof.Machine

/-- Every way a step answers a next state. -/
theorem step_next {s t : State} (h : step s = .next t) :
    configOk s.config = true ∧
    ((s.pending = [] ∧ t = s) ∨
     (∃ c r rest S, s.pending = .request c r :: rest ∧ s.contexts[c]? = some (.live S) ∧
        t = (s.accept c rest).settle (requestOp s.config r S)) ∨
     (∃ rest, s.pending = .request s.contexts.length .new :: rest ∧
        roomForContext s.config s.contexts = true ∧
        t = (s.accept s.contexts.length rest).beginContext.answer (.value .newStack)) ∨
     (∃ c rest S, s.pending = .endContext c :: rest ∧ s.contexts[c]? = some (.live S) ∧
        t = { s with pending := rest, contexts := s.contexts.set c .ended }) ∨
     (∃ rest, s.pending = .reset :: rest ∧ t = resetBlock { s with pending := rest })) := by
  unfold step serveNext at h
  split at h
  case isFalse => cases h
  case isTrue hc =>
    refine ⟨hc, ?_⟩
    split at h
    · rename_i hp
      exact .inl ⟨hp, by simpa using h.symm⟩
    · rename_i c r rest hp
      rcases serveRequest_next h with ⟨S, hS, ht⟩ | ⟨hr, ha, hroom, ht⟩
      · exact .inr (.inl ⟨c, r, rest, S, hp, hS, ht⟩)
      · simp only [accept_active, accept_contexts] at ha
        subst ha hr
        exact .inr (.inr (.inl ⟨rest, hp, hroom, ht⟩))
    · rename_i c rest hp
      obtain ⟨S, hS, ht⟩ := endContext_next h
      exact .inr (.inr (.inr (.inl ⟨c, rest, S, hp, hS, ht⟩)))
    · rename_i rest hp
      exact .inr (.inr (.inr (.inr ⟨rest, hp, by simpa using h.symm⟩)))

/-- A request of a context that exists: the step answers the state its stack function gives. -/
theorem step_request {s : State} {c : Nat} {r : Request} {rest : List HostMove} {S : Stack}
    (h : s.Serves c S r rest) :
    step s = .next ((s.accept c rest).settle (requestOp s.config r S)) := by
  have e : (s.accept c rest).contexts[(s.accept c rest).active]? = some (.live S) := h.context
  simp only [step, serveNext, h.config, if_true, h.pending]
  exact serveRequest_live r e

@[simp] theorem settle_config (s : State) (x : Result) : (s.settle x).config = s.config := by
  cases x <;> rfl

@[simp] theorem settle_pending (s : State) (x : Result) : (s.settle x).pending = s.pending := by
  cases x <;> rfl

@[simp] theorem settle_active (s : State) (x : Result) : (s.settle x).active = s.active := by
  cases x <;> rfl

/-- Settling a request leaves every other context as it was. -/
theorem settle_other (s : State) (x : Result) {c : Nat} (h : c ≠ s.active) :
    (s.settle x).contexts[c]? = s.contexts[c]? := by
  cases x with
  | done S v => exact List.getElem?_set_ne (Ne.symm h)
  | error e => rfl
  | capacityFault => rfl

@[simp] theorem settle_contexts_length (s : State) (x : Result) :
    (s.settle x).contexts.length = s.contexts.length := by
  cases x <;> simp [State.settle]

end Sys2Proof.Machine
end

