-- ==== Sys2Proof/Tests/Slice0.lean ====
section
/-! SUPPORT. Tests from spec/95_test_vectors.md (the vector's name in each comment), the smoke tests of WellFormed, and a
witness for the hypotheses of every statement that has some. -/

namespace Sys2Proof.Tests

open Sys2Proof.Machine

/-- One context with the stack `S`, and the moves `p` pending. -/
def at1 (cfg : Config) (S : Stack) (p : List HostMove) : State :=
  { config := cfg, contexts := [.live S], capacityFault := false, pending := p, replies := [], active := 0 }

/-- Two contexts. -/
def at2 (S T : Stack) (p : List HostMove) : State :=
  { config := hardwareConfig, contexts := [.live S, .live T], capacityFault := false, pending := p, replies := [],
    active := 0 }

/-- The hardware's configuration with a finite capacity. -/
def capped (n : Nat) : Config := { hardwareConfig with stackCapacity := some n }

/-- The repository's most complete snapshot (92 D4). -/
def onlyAdd8 : Config := { hardwareConfig with widths := [.w8] }

/-- The stack of context 0 and the replies after a step; nothing where it stops. -/
def seen (o : Host.Outcome State Fault Refusal) : Option (Option Context × List (Nat × Reply) × Bool) :=
  match o with
  | .next t => some (t.contexts[0]?, t.replies, t.capacityFault)
  | _ => none

/-- What one request of context 0 shows. -/
def ask (cfg : Config) (S : Stack) (r : Request) : Option (Option Context × List (Nat × Reply) × Bool) :=
  seen (step (at1 cfg S [.request 0 r]))

/-- What a success shows. -/
def ok (S : Stack) (v : Value) : Option (Option Context × List (Nat × Reply) × Bool) :=
  some (some (.live S), [(0, .value v)], false)

/-- What an error shows. -/
def err (S : Stack) (e : Error) : Option (Option Context × List (Nat × Reply) × Bool) :=
  some (some (.live S), [(0, .error e)], false)

/-! ## WellFormed: each check refuses an ill-formed term -/

theorem test_wf_absent_width : (Instr.add16 1 2).wellFormed onlyAdd8 = false := by decide
theorem test_wf_present_width : (Instr.add8 1 2).wellFormed onlyAdd8 = true := by decide
theorem test_wf_widths_without_one : ({ hardwareConfig with widths := [.w16] } : Config).widthsOk = false := by decide
theorem test_wf_widths_repeat : ({ hardwareConfig with widths := [.w8, .w8] } : Config).widthsOk = false := by decide
theorem test_wf_ids_coincide :
    ({ hardwareConfig with opcAdd16 := 2 } : Config).opcodesOk opcAdd8 = false := by decide
theorem test_wf_id_of_add8_taken :
    ({ hardwareConfig with opcAdd32 := 0 } : Config).opcodesOk opcAdd8 = false := by decide
theorem test_wf_no_context : ({ hardwareConfig with nContexts := some 0 } : Config).contextsOk = false := by decide
theorem test_wf_hardware : configOk hardwareConfig = true := by decide

/-! ## Decode: words written out from 30_encoding.md R61 and 95_test_vectors.md -/

/-- W4 -/
theorem test_decode_add8 : decode hardwareConfig [0x00, 0x00, 0x15, 0x03] = .ok (.add8 0x15 0x03) := by rfl
/-- A16-1 -/
theorem test_decode_add16 :
    decode hardwareConfig [0x00, 0x01, 0x12, 0x34, 0x00, 0x01] = .ok (.add16 0x1234 0x0001) := by rfl
/-- A32-3 -/
theorem test_decode_add32 : decode hardwareConfig [0x00, 0x02, 0x12, 0x34, 0x56, 0x78, 0x11, 0x11, 0x11, 0x11] =
    .ok (.add32 0x12345678 0x11111111) := by rfl
/-- D-10 -/
theorem test_decode_trailing : decode hardwareConfig [0x00, 0x00, 0x15, 0x03, 0xAA, 0xBB] = .ok (.add8 0x15 0x03) := by
  rfl
/-- D-2 and P-1 -/
theorem test_decode_length_first :
    decode hardwareConfig [0xFF] = .error (.instructionTooShort none 2 1) := by rfl
/-- D-5 -/
theorem test_decode_short_add32 :
    decode hardwareConfig [0x00, 0x02, 0x00] = .error (.instructionTooShort (some 2) 10 3) := by rfl
/-- D-8 -/
theorem test_decode_big_endian_opcode :
    decode hardwareConfig [0x01, 0x00, 0x00, 0x00] = .error (.unknownOpcode 0x0100) := by rfl
/-- D-11 -/
theorem test_decode_absent_width :
    decode onlyAdd8 [0x00, 0x01, 0x12, 0x34, 0x00, 0x01] = .error (.unknownOpcode 1) := by rfl
/-- the example of R73, encoded -/
theorem test_encode_add8 : encode hardwareConfig (.add8 21 3) = [0x00, 0x00, 0x15, 0x03] := by decide
/-- A16-1, encoded -/
theorem test_encode_add16 :
    encode hardwareConfig (.add16 0x1234 1) = [0x00, 0x01, 0x12, 0x34, 0x00, 0x01] := by decide
/-- A32-1, encoded -/
theorem test_encode_add32 : encode hardwareConfig (.add32 1 0xFFFFFFFE) =
    [0x00, 0x02, 0x00, 0x00, 0x00, 0x01, 0xFF, 0xFF, 0xFF, 0xFE] := by decide
/-- the table's row of ADD8 with operands 0x15, 0x03 in bits 31..16 -/
theorem test_table_word_add8 : decodeTableWord 32 0x15030000 = some (.add8 0x15 0x03) := by decide
/-- the table's row of ADD16: identifier in bits 15..0, `a` in 31..16, `b` in 47..32 -/
theorem test_table_word_add16 : decodeTableWord 48 0x000112340001 = some (.add16 0x1234 1) := by decide
/-- the table's row of ADD32, operands of zeros -/
theorem test_table_word_add32 : decodeTableWord 80 0x0002 = some (.add32 0 0) := by decide
/-- bits from `nbits` on are zero -/
theorem test_table_word_cut : decodeTableWord 16 0xFFFF0000 = some (.add8 0 0) := by decide

/-! ## Assembler: R73 -/

theorem test_assemble_text : assembleText hardwareConfig "ADD8 21, 3".toList = some [0x00, 0x00, 0x15, 0x03] := by
  decide
theorem test_assemble_hex : assembleText hardwareConfig "ADD16 0x1200, 0x34".toList =
    some [0x00, 0x01, 0x12, 0x00, 0x00, 0x34] := by decide
theorem test_assemble_literal_too_big : assembleText hardwareConfig "ADD8 256, 0".toList = none := by decide

/-! ## The instructions -/

/-- A8-7: the stack is not read -/
theorem test_add8 : ask hardwareConfig [0x99] (.execute [0x00, 0x00, 0x15, 0x03]) =
    ok [0x99, 0x18] (.delta ⟨4, 1⟩) := by decide
/-- A8-6: operand order kept in the error -/
theorem test_add8_overflow : ask hardwareConfig [] (.execute [0x00, 0x00, 0x02, 0xFF]) =
    err [] (.arithmeticOverflow 0x02 0xFF) := by decide
/-- A16-3: a carry between bytes is not an overflow -/
theorem test_add16 : ask hardwareConfig [] (.execute [0x00, 0x01, 0x00, 0xFF, 0x00, 0x01]) =
    ok [0x01, 0x00] (.delta ⟨6, 2⟩) := by decide
/-- A16-6 -/
theorem test_add16_overflow : ask hardwareConfig [] (.execute [0x00, 0x01, 0xFF, 0xFF, 0x00, 0x01]) =
    err [] (.arithmeticOverflow 0xFFFF 1) := by decide
/-- A32-3 -/
theorem test_add32 : ask hardwareConfig [] (.execute [0x00, 0x02, 0x12, 0x34, 0x56, 0x78, 0x11, 0x11, 0x11, 0x11]) =
    ok [0x23, 0x45, 0x67, 0x89] (.delta ⟨10, 4⟩) := by decide
/-- A32-4 -/
theorem test_add32_overflow :
    ask hardwareConfig [] (.execute [0x00, 0x02, 0xFF, 0xFF, 0xFF, 0xFF, 0x00, 0x00, 0x00, 0x01]) =
    err [] (.arithmeticOverflow 0xFFFFFFFF 1) := by decide
/-- F-2: the overflow check comes before the capacity -/
theorem test_overflow_before_capacity : ask (capped 2) [0xAA, 0xBB] (.execute [0x00, 0x00, 0xFF, 0x02]) =
    err [0xAA, 0xBB] (.arithmeticOverflow 0xFF 2) := by decide
/-- F-3 -/
theorem test_add16_past_capacity : ask (capped 2) [0xAA] (.execute [0x00, 0x01, 0x00, 0x01, 0x00, 0x01]) =
    some (some (.live [0xAA]), [], true) := by decide

/-! ## The stack port -/

/-- S3 -/
theorem test_pop8 : ask hardwareConfig [0x11, 0x22] .pop8 = ok [0x11] (.popped8 0x22) := by decide
/-- S4 -/
theorem test_pop8_underflow : ask hardwareConfig [] .pop8 = err [] (.stackUnderflow 1 0) := by decide
/-- S5 -/
theorem test_push16 : ask hardwareConfig [] (.push16 0x1234) = ok [0x12, 0x34] .pushed := by decide
/-- S8 -/
theorem test_pop16_underflow : ask hardwareConfig [0xAB] .pop16 = err [0xAB] (.stackUnderflow 2 1) := by decide
/-- S14 -/
theorem test_pop16 : ask hardwareConfig [0xAB, 0xCD] .pop16 = ok [] (.popped16 0xABCD) := by decide
/-- S10 -/
theorem test_push32 : ask hardwareConfig [] (.push32 0x11223344) = ok [0x11, 0x22, 0x33, 0x44] .pushed := by decide
/-- S13 -/
theorem test_pop32 : ask hardwareConfig [0xDE, 0xAD, 0xBE, 0xEF, 0x01] .pop32 = ok [0xDE] (.popped32 0xADBEEF01) := by
  decide
/-- S12 -/
theorem test_pop32_underflow :
    ask hardwareConfig [1, 2, 3] .pop32 = err [1, 2, 3] (.stackUnderflow 4 3) := by decide
/-- S7: the count is in bytes -/
theorem test_len : ask hardwareConfig [0x00, 0x05] .len = ok [0x00, 0x05] (.length 2) := by decide
/-- F-1 -/
theorem test_push8_past_capacity :
    ask (capped 2) [0xAA, 0xBB] (.push8 1) = some (some (.live [0xAA, 0xBB]), [], true) := by decide

/-! ## Contexts, reset, driver -/

/-- R140 -/
theorem test_reset_move : seen (step (at1 hardwareConfig [1, 2] [.reset])) = some (some (.live []), [], false) := by
  decide
/-- R143 -/
theorem test_end_context : seen (step (at1 hardwareConfig [1, 2] [.endContext 0])) = some (some .ended, [], false) := by
  decide
/-- Program 3: an overflow stops the run and leaves the stack intact -/
theorem test_driver_program3 :
    run hardwareConfig [0x00, 0x00, 0x10, 0x20, 0x00, 0x00, 0xFF, 0x02, 0x00, 0x00, 0x01, 0x01] [0x99] =
      some ⟨.error (.arithmeticOverflow 0xFF 2), [0x00, 0x00, 0xFF, 0x02, 0x00, 0x00, 0x01, 0x01], [0x99, 0x30]⟩ := by
  decide
/-- D24 -/
theorem test_error_codes : (errorCode (.stackUnderflow 1 0), errorCode (.instructionTooShort none 2 0),
    errorCode (.unknownOpcode 3), errorCode (.arithmeticOverflow 255 1)) = (1, 2, 3, 4) := by decide
/-- R92: a faulted state is no successful end -/
theorem test_faulted_is_no_success :
    ({ at1 (capped 2) [] [] with capacityFault := true } : State).successfulEnd = false := by decide

/-! ## Witnesses: the hypotheses of the statements, met together -/

/-- The state of the witnesses meets `Serves` at every acceptable configuration. -/
theorem at1_serves {cfg : Config} (h : configOk cfg = true) (S : Stack) (r : Request) (rest : List HostMove) :
    (at1 cfg S (.request 0 r :: rest)).Serves 0 S r rest := ⟨h, rfl, rfl⟩

theorem hw_ok : configOk hardwareConfig = true := by decide
theorem capped_ok (n : Nat) : configOk (capped n) = true := rfl

/-- a capacity reached exactly is not passed -/
theorem capped_boundary : ∀ N, (capped 4).stackCapacity = some N → 0 + 4 ≤ N := by
  intro N h; cases h; decide

theorem reset_has_invariant : State.reset.Inv := by
  refine ⟨by decide, ?_, ?_, fun _ => rfl, ?_⟩
  · intro N h; cases h
  · intro N h; cases h
  · intro c r h; cases h

theorem witness_StepKeepsInvariant : State.reset.Inv ∧ step State.reset = .next State.reset :=
  ⟨reset_has_invariant, rfl⟩

theorem witness_DecodeOfEncodeIsInstruction :
    configOk onlyAdd8 = true ∧ (Instr.add8 0xFF 0xFF).wellFormed onlyAdd8 = true := by decide

theorem witness_DecodedBytesAreItsEncoding : configOk hardwareConfig = true ∧
    decode hardwareConfig [0x00, 0x00, 0xFF, 0x00] = .ok (.add8 0xFF 0x00) := ⟨hw_ok, rfl⟩

theorem witness_BigEndianAssembly : (1 < 2 ∧ 0 < 2) ∧ 65535 < 256 ^ 2 := by decide

theorem witness_OpcodeTable : configOk hardwareConfig = true ∧
    ⟨0x0002, "ADD32", 10, .w32, .add⟩ ∈ opcodeTable hardwareConfig := ⟨hw_ok, by simp [opcodeTable, hardwareConfig, descriptorOf, minLen, opcodeBytes, Width.bytes]⟩

theorem witness_TooShortForTheOpcode :
    (at1 hardwareConfig [] [.request 0 (.execute [0xFF])]).Serves 0 [] (.execute [0xFF]) [] ∧
    [(0xFF : Byte)].length < 2 := ⟨at1_serves hw_ok _ _ _, by decide⟩

theorem witness_UnknownIdentifierFails :
    (at1 hardwareConfig [] [.request 0 (.execute [0x00, 0x03])]).Serves 0 [] (.execute [0x00, 0x03]) [] ∧
    ∀ d ∈ opcodeTable hardwareConfig, d.id ≠ (0x00 : Byte) ++ (0x03 : Byte) := ⟨at1_serves hw_ok _ _ _, by decide⟩

theorem witness_TooShortForTheInstruction :
    (at1 hardwareConfig [] [.request 0 (.execute [0x00, 0x00, 0x15])]).Serves 0 [] (.execute [0x00, 0x00, 0x15]) [] ∧
    descriptorOf hardwareConfig .w8 ∈ opcodeTable hardwareConfig ∧
    (descriptorOf hardwareConfig .w8).id = (0x00 : Byte) ++ (0x00 : Byte) ∧
    [(0x00 : Byte), 0x00, 0x15].length < (descriptorOf hardwareConfig .w8).minimumLength :=
  ⟨at1_serves hw_ok _ _ _, by decide⟩

theorem witness_TrailingBytesAreIgnored :
    2 ≤ [(0x00 : Byte), 0x00, 0x15, 0x03].length ∧
    lookup hardwareConfig (opcodeField [0x00, 0x00, 0x15, 0x03]) = some (descriptorOf hardwareConfig .w8) ∧
    (descriptorOf hardwareConfig .w8).minimumLength ≤ [(0x00 : Byte), 0x00, 0x15, 0x03].length := by decide

theorem witness_AssembledStatementDecodes : configOk hardwareConfig = true ∧ Width.w8 ∈ hardwareConfig.widths ∧
    (255 < 256 ^ Width.w8.bytes ∧ 0 < 256 ^ Width.w8.bytes) ∧
    (256 ^ Width.w8.bytes ≤ 256 ∨ 256 ^ Width.w8.bytes ≤ 0) := by decide

theorem witness_StepRunsTheDecodedInstruction : configOk hardwareConfig = true ∧
    (at1 hardwareConfig [] [.request 0 (.execute [0x00, 0x00, 0x15, 0x03])]).pending =
      .request 0 (.execute [0x00, 0x00, 0x15, 0x03]) :: [] ∧
    decode hardwareConfig [0x00, 0x00, 0x15, 0x03] = .ok (.add8 0x15 0x03) := ⟨hw_ok, rfl, rfl⟩

theorem witness_PlacedTableWordRunsNext : configOk State.reset.config = true ∧
    decode State.reset.config (tableBytes 48 1) = .ok (.add16 0 0) := ⟨hw_ok, rfl⟩

/-- the largest sum without overflow, at a capacity reached exactly -/
theorem witness_ExecPushesTheSum : (at1 (capped 4) [] []).contexts[(at1 (capped 4) [] []).active]? = some (.live []) ∧
    (0xFF#8).toNat + (0x00#8).toNat ≤ 0xFF ∧ (0xFFFF#16).toNat + (0#16).toNat ≤ 0xFFFF ∧
    (0xFFFFFFFF#32).toNat + (0#32).toNat ≤ 0xFFFFFFFF ∧
    (∀ N, (capped 4).stackCapacity = some N → ([] : Stack).length + 4 ≤ N) :=
  ⟨rfl, by decide, by decide, by decide, capped_boundary⟩

theorem witness_ExecAdd8Room : ∀ N, (capped 1).stackCapacity = some N → ([] : Stack).length + 1 ≤ N := by
  intro N h; cases h; decide

theorem witness_ExecAdd16Room : ∀ N, (capped 2).stackCapacity = some N → ([] : Stack).length + 2 ≤ N := by
  intro N h; cases h; decide

/-- the smallest sums that overflow -/
theorem witness_ExecAddOverflow : (at1 hardwareConfig [] []).contexts[(at1 hardwareConfig [] []).active]? = some (.live []) ∧
    0xFF < (0xFF#8).toNat + (1#8).toNat ∧ 0xFFFF < (0xFFFF#16).toNat + (1#16).toNat ∧
    0xFFFFFFFF < (0xFFFFFFFF#32).toNat + (1#32).toNat := ⟨rfl, by decide⟩

/-- one byte short of room, at each width -/
theorem witness_PastCapacity : (capped 0).stackCapacity = some 0 ∧ 0 < ([] : Stack).length + 1 ∧
    (capped 1).stackCapacity = some 1 ∧ 1 < ([] : Stack).length + 2 ∧
    (capped 3).stackCapacity = some 3 ∧ 3 < ([] : Stack).length + 4 ∧
    (at1 (capped 3) [] []).contexts[(at1 (capped 3) [] []).active]? = some (.live []) ∧
    (1#32).toNat + (1#32).toNat ≤ 0xFFFFFFFF ∧ (1#16).toNat + (1#16).toNat ≤ 0xFFFF ∧
    (1#8).toNat + (1#8).toNat ≤ 0xFF := by decide

theorem witness_PushPastCapacity : (at1 (capped 3) [] [.request 0 (.push32 1)]).Serves 0 [] (.push32 1) [] ∧
    (at1 (capped 1) [] [.request 0 (.push16 1)]).Serves 0 [] (.push16 1) [] ∧
    (at1 (capped 0) [] [.request 0 (.push8 1)]).Serves 0 [] (.push8 1) [] :=
  ⟨at1_serves (capped_ok 3) _ _ _, at1_serves (capped_ok 1) _ _ _, at1_serves (capped_ok 0) _ _ _⟩

theorem witness_Add8Call :
    (at1 hardwareConfig [] [.request 0 (.execute [0x00, 0x00, 0xFF, 0x00])]).Serves 0 []
      (.execute (0x00 :: 0x00 :: 0xFF :: 0x00 :: [])) [] ∧
    (at1 hardwareConfig [] [.request 0 (.execute [0x00, 0x00, 0xFF, 0x01])]).Serves 0 []
      (.execute (0x00 :: 0x00 :: 0xFF :: 0x01 :: [])) [] ∧
    (at1 hardwareConfig [] [.request 0 (.execute [0x00, 0x00, 0x15])]).Serves 0 []
      (.execute (0x00 :: 0x00 :: [0x15])) [] ∧
    (at1 hardwareConfig [] [.request 0 (.execute [0x15])]).Serves 0 [] (.execute [0x15]) [] ∧
    [(0x15 : Byte)].length < 2 :=
  ⟨at1_serves hw_ok _ _ _, at1_serves hw_ok _ _ _, at1_serves hw_ok _ _ _, at1_serves hw_ok _ _ _, by decide⟩

theorem witness_Add16Call : Width.w16 ∈ hardwareConfig.widths ∧ (0x0001#16) = hardwareConfig.opcAdd16 ∧
    (at1 hardwareConfig [] [.request 0 (.execute [0x00, 0x01, 0xFF, 0xFF, 0x00, 0x00])]).Serves 0 []
      (.execute ((0x0001#16).extractLsb' 8 8 :: (0x0001#16).extractLsb' 0 8 :: (0xFFFF#16).extractLsb' 8 8 ::
        (0xFFFF#16).extractLsb' 0 8 :: (0#16).extractLsb' 8 8 :: (0#16).extractLsb' 0 8 :: [])) [] ∧
    (at1 hardwareConfig [] [.request 0 (.execute [0x00, 0x01, 0, 0, 0])]).Serves 0 []
      (.execute ((0x0001#16).extractLsb' 8 8 :: (0x0001#16).extractLsb' 0 8 :: [0, 0, 0])) [] ∧
    [(0 : Byte), 0, 0].length < 4 :=
  ⟨by decide, by decide, at1_serves hw_ok _ _ _, at1_serves hw_ok _ _ _, by decide⟩

theorem witness_Add32Call : Width.w32 ∈ hardwareConfig.widths ∧ (0x0002#16) = hardwareConfig.opcAdd32 ∧
    (at1 hardwareConfig [] [.request 0 (.execute [0x00, 0x02, 0xFF, 0xFF, 0xFF, 0xFF, 0, 0, 0, 1])]).Serves 0 []
      (.execute ((0x0002#16).extractLsb' 8 8 :: (0x0002#16).extractLsb' 0 8 :: (0xFFFFFFFF#32).extractLsb' 24 8 ::
        (0xFFFFFFFF#32).extractLsb' 16 8 :: (0xFFFFFFFF#32).extractLsb' 8 8 :: (0xFFFFFFFF#32).extractLsb' 0 8 ::
        (1#32).extractLsb' 24 8 :: (1#32).extractLsb' 16 8 :: (1#32).extractLsb' 8 8 :: (1#32).extractLsb' 0 8 ::
        [])) [] ∧
    (at1 hardwareConfig [] [.request 0 (.execute [0x00, 0x02, 0, 0, 0, 0, 0, 0, 0])]).Serves 0 []
      (.execute ((0x0002#16).extractLsb' 8 8 :: (0x0002#16).extractLsb' 0 8 :: [0, 0, 0, 0, 0, 0, 0])) [] ∧
    [(0 : Byte), 0, 0, 0, 0, 0, 0].length < 8 :=
  ⟨by decide, by decide, at1_serves hw_ok _ _ _, at1_serves hw_ok _ _ _, by decide⟩

/-- the boundary of the two clauses: a sum of 0xFF commits, one of 0x100 overflows -/
theorem witness_AddCommitsAndOverflow :
    descriptorOf hardwareConfig .w8 ∈ opcodeTable hardwareConfig ∧
    [(0xFF : Byte)].length = (descriptorOf hardwareConfig .w8).operandWidth.bytes ∧
    be [0xFF] + be [0x00] ≤ 256 ^ (descriptorOf hardwareConfig .w8).operandWidth.bytes - 1 ∧
    256 ^ (descriptorOf hardwareConfig .w8).operandWidth.bytes - 1 < be [0xFF] + be [0x01] ∧
    (at1 hardwareConfig [] [.request 0 (.execute [0x00, 0x00, 0xFF, 0x00])]).Serves 0 []
      (.execute ((descriptorOf hardwareConfig .w8).id.extractLsb' 8 8 ::
        (descriptorOf hardwareConfig .w8).id.extractLsb' 0 8 :: ([0xFF] ++ [0x00] ++ []))) [] ∧
    (at1 hardwareConfig [] [.request 0 (.execute [0x00, 0x00, 0xFF, 0x01])]).Serves 0 []
      (.execute ((descriptorOf hardwareConfig .w8).id.extractLsb' 8 8 ::
        (descriptorOf hardwareConfig .w8).id.extractLsb' 0 8 :: ([0xFF] ++ [0x01] ++ []))) [] :=
  ⟨by decide, by decide, by decide, by decide, at1_serves hw_ok _ _ _, at1_serves hw_ok _ _ _⟩

/-- both clauses: 0xFF + 0 fits, 0xFF + 1 does not -/
theorem witness_AddIsCommutativeWithIdentityZero : 255 < 256 ^ Width.w8.bytes ∧ 1 < 256 ^ Width.w8.bytes ∧
    256 ^ Width.w8.bytes ≤ 255 + 1 ∧ 255 + 0 < 256 ^ Width.w8.bytes ∧
    exec (instrOf .add .w8 255 0) (at1 hardwareConfig [] []) =
      .next { at1 hardwareConfig [0xFF] [] with replies := [(0, .value (.delta ⟨4, 1⟩))] } ∧
    exec (instrOf .add .w8 255 1) (at1 hardwareConfig [] []) =
      .next { at1 hardwareConfig [] [] with replies := [(0, .error (.arithmeticOverflow 255 1))] } :=
  ⟨by decide, by decide, by decide, by decide, rfl, rfl⟩

theorem witness_StepServesExecute :
    (at1 (capped 2) [0xAA, 0xBB] [.request 0 (.execute [0, 0, 1, 1])]).Serves 0 [0xAA, 0xBB] (.execute [0, 0, 1, 1]) [] ∧
    execute (capped 2) [0, 0, 1, 1] [0xAA, 0xBB] = .capacityFault ∧
    execute (capped 2) [0, 0, 1, 1] [0xAA] = .done [0xAA, 2] (.delta ⟨4, 1⟩) ∧
    execute (capped 2) [0, 0, 0xFF, 1] [0xAA] = .error (.arithmeticOverflow 0xFF 1) :=
  ⟨at1_serves (capped_ok 2) _ _ _, by decide⟩

/-- of `ExecuteNeverReadsTheStack` and `ExecuteEndsInResultOrError` -/
theorem witness_Unbounded : hardwareConfig.stackCapacity = none ∧
    execute hardwareConfig [0, 0, 1, 1] [] = .done [2] (.delta ⟨4, 1⟩) ∧
    execute hardwareConfig [0, 0, 0xFF, 1] [] = .error (.arithmeticOverflow 0xFF 1) := by decide

/-- pushes at a capacity reached exactly -/
theorem witness_Push8AppendsTheByte :
    (at1 (capped 1) [] [.request 0 (.push8 0xFF)]).Serves 0 [] (.push8 0xFF) [] ∧
    ∀ N, (capped 1).stackCapacity = some N → ([] : Stack).length + 1 ≤ N :=
  ⟨at1_serves (capped_ok 1) _ _ _, witness_ExecAdd8Room⟩

theorem witness_Push16AppendsTwoBytes :
    (at1 (capped 2) [] [.request 0 (.push16 0x1234)]).Serves 0 [] (.push16 0x1234) [] ∧
    ∀ N, (capped 2).stackCapacity = some N → ([] : Stack).length + 2 ≤ N :=
  ⟨at1_serves (capped_ok 2) _ _ _, witness_ExecAdd16Room⟩

theorem witness_Push32AppendsFourBytes :
    (at1 (capped 4) [] [.request 0 (.push32 0x11223344)]).Serves 0 [] (.push32 0x11223344) [] ∧
    ∀ N, (capped 4).stackCapacity = some N → ([] : Stack).length + 4 ≤ N :=
  ⟨at1_serves (capped_ok 4) _ _ _, capped_boundary⟩

/-- both clauses of each pop: one byte short, and just enough -/
theorem witness_Pop8TakesTheTopByte :
    (at1 hardwareConfig [] [.request 0 .pop8]).Serves 0 [] .pop8 [] ∧
    (at1 hardwareConfig [1] [.request 0 .pop8]).Serves 0 ([] ++ [1]) .pop8 [] :=
  ⟨at1_serves hw_ok _ _ _, at1_serves hw_ok _ _ _⟩

theorem witness_Pop16TakesTheTopTwoBytes :
    (at1 hardwareConfig [1] [.request 0 .pop16]).Serves 0 [1] .pop16 [] ∧ [(1 : Byte)].length < 2 ∧
    (at1 hardwareConfig [1, 2] [.request 0 .pop16]).Serves 0 ([] ++ [1, 2]) .pop16 [] :=
  ⟨at1_serves hw_ok _ _ _, by decide, at1_serves hw_ok _ _ _⟩

theorem witness_Pop32TakesTheTopFourBytes :
    (at1 hardwareConfig [1, 2, 3] [.request 0 .pop32]).Serves 0 [1, 2, 3] .pop32 [] ∧ [(1 : Byte), 2, 3].length < 4 ∧
    (at1 hardwareConfig [1, 2, 3, 4] [.request 0 .pop32]).Serves 0 ([] ++ [1, 2, 3, 4]) .pop32 [] :=
  ⟨at1_serves hw_ok _ _ _, by decide, at1_serves hw_ok _ _ _⟩

theorem witness_NewLeavesAnEmptyStack : (at1 hardwareConfig [1] [.request 0 .new]).Serves 0 [1] .new [] :=
  at1_serves hw_ok _ _ _

theorem witness_LenCountsBytes : (at1 hardwareConfig [1, 2] [.request 0 .len]).Serves 0 [1, 2] .len [] :=
  at1_serves hw_ok _ _ _

/-- both ends: a reply, and the mark at a finite capacity -/
theorem witness_EveryRequestEnds :
    (at1 hardwareConfig [1] [.request 0 .pop16]).Serves 0 [1] .pop16 [] ∧
    (at1 (capped 1) [1] [.request 0 (.push8 2)]).Serves 0 [1] (.push8 2) [] :=
  ⟨at1_serves hw_ok _ _ _, at1_serves (capped_ok 1) _ _ _⟩

theorem witness_PopAfterPushReturnsTheValue :
    (at1 (capped 1) [] [.request 0 (.push8 7), .request 0 .pop8]).Serves 0 [] (.push8 7) (.request 0 .pop8 :: []) ∧
    (at1 (capped 2) [] [.request 0 (.push16 7), .request 0 .pop16]).Serves 0 [] (.push16 7) (.request 0 .pop16 :: []) ∧
    (at1 (capped 4) [] [.request 0 (.push32 7), .request 0 .pop32]).Serves 0 [] (.push32 7)
      (.request 0 .pop32 :: []) :=
  ⟨at1_serves (capped_ok 1) _ _ _, at1_serves (capped_ok 2) _ _ _, at1_serves (capped_ok 4) _ _ _⟩

theorem witness_MixedWidthPopsSeeRawBytes : hardwareConfig.stackCapacity = none ∧
    (at1 hardwareConfig [] [.request 0 (.push32 7), .request 0 .pop16, .request 0 .pop16]).Serves 0 [] (.push32 7)
      (.request 0 .pop16 :: .request 0 .pop16 :: []) ∧
    (at1 hardwareConfig [] [.request 0 (.push16 7), .request 0 .pop8, .request 0 .pop8]).Serves 0 [] (.push16 7)
      (.request 0 .pop8 :: .request 0 .pop8 :: []) ∧
    (at1 hardwareConfig [] [.request 0 (.push8 7), .request 0 (.push8 8), .request 0 .pop16]).Serves 0 [] (.push8 7)
      (.request 0 (.push8 8) :: .request 0 .pop16 :: []) :=
  ⟨rfl, at1_serves hw_ok _ _ _, at1_serves hw_ok _ _ _, at1_serves hw_ok _ _ _⟩

theorem witness_PopAfterExecuteReturnsTheSum : hardwareConfig.stackCapacity = none ∧
    (at1 hardwareConfig [] [.request 0 (.execute (encode hardwareConfig (.add8 0xFF 0))), .request 0 .pop8]).Serves 0 []
      (.execute (encode hardwareConfig (.add8 0xFF 0))) (.request 0 .pop8 :: []) ∧
    (at1 hardwareConfig [] [.request 0 (.execute (encode hardwareConfig (.add16 0xFFFF 0))), .request 0 .pop16]).Serves
      0 [] (.execute (encode hardwareConfig (.add16 0xFFFF 0))) (.request 0 .pop16 :: []) ∧
    (at1 hardwareConfig [] [.request 0 (.execute (encode hardwareConfig (.add32 1 2))), .request 0 .pop32]).Serves
      0 [] (.execute (encode hardwareConfig (.add32 1 2))) (.request 0 .pop32 :: []) ∧
    (0xFF#8).toNat + (0#8).toNat ≤ 0xFF ∧ (0xFFFF#16).toNat + (0#16).toNat ≤ 0xFFFF ∧
    (1#32).toNat + (2#32).toNat ≤ 0xFFFFFFFF ∧
    Width.w16 ∈ hardwareConfig.widths ∧ Width.w32 ∈ hardwareConfig.widths :=
  ⟨rfl, at1_serves hw_ok _ _ _, at1_serves hw_ok _ _ _, at1_serves hw_ok _ _ _, by decide⟩

theorem witness_FailureLeavesEveryStack :
    (at1 hardwareConfig [0xAB] [.request 0 .pop16]).pending = .request 0 .pop16 :: [] ∧
    step (at1 hardwareConfig [0xAB] [.request 0 .pop16]) =
      .next { at1 hardwareConfig [0xAB] [] with replies := (0, .error (.stackUnderflow 2 1)) :: [] } := ⟨rfl, rfl⟩

theorem witness_OnlyTheOwner :
    (at2 [1] [2] [.request 0 .pop8]).Serves 0 [1] .pop8 [] ∧ (at2 [1] [3, 4] [.request 0 .pop8]).Serves 0 [1] .pop8 [] ∧
    (at2 [1] [2] [.request 0 .pop8]).config = (at2 [1] [3, 4] [.request 0 .pop8]).config ∧
    step (at2 [1] [2] [.request 0 .pop8]) =
      .next { at2 [] [2] [] with replies := [(0, .value (.popped8 1))] } :=
  ⟨⟨hw_ok, rfl, rfl⟩, ⟨hw_ok, rfl, rfl⟩, rfl, rfl⟩

theorem witness_RequestsOfTwoContextsCommute :
    configOk (at2 [1] [2] []).config = true ∧
    (at2 [1] [2] []).contexts[0]? = some (.live [1]) ∧ (at2 [1] [2] []).contexts[1]? = some (.live [2]) ∧
    core.run 2 { at2 [1] [2] [] with pending := [.request 0 .pop8, .request 1 (.push8 7)] } =
      .next { at2 [] [2, 7] [] with replies := [(1, .value .pushed), (0, .value (.popped8 1))], active := 1 } ∧
    core.run 2 { at2 [1] [2] [] with pending := [.request 1 (.push8 7), .request 0 .pop8] } =
      .next { at2 [] [2, 7] [] with replies := [(0, .value (.popped8 1)), (1, .value .pushed)], active := 0 } :=
  ⟨hw_ok, rfl, rfl, rfl, rfl⟩

theorem witness_EveryQueuedRequestIsServed :
    configOk (at1 hardwareConfig [] [.request 0 .len]).config = true ∧
    (at1 hardwareConfig [] [.request 0 .len]).onlyLiveRequests := by
  refine ⟨hw_ok, ?_⟩
  intro m hm
  exact ⟨0, .len, List.mem_singleton.mp hm, [], rfl⟩

/-- of `EarlierRepliesAffectNothing` and `ConfigurationNeverChanges` -/
theorem witness_Steps : step (at1 hardwareConfig [] [.request 0 .len]) =
    .next { at1 hardwareConfig [] [] with replies := [(0, .value (.length 0))] } := rfl

theorem witness_CapacityMarkIsSticky :
    step { at1 (capped 0) [] [.request 0 (.push8 1)] with capacityFault := true } =
      .next { at1 (capped 0) [] [] with capacityFault := true } ∧
    ∀ rest, ({ at1 (capped 0) [] [.request 0 (.push8 1)] with capacityFault := true } : State).pending ≠
      .reset :: rest := ⟨rfl, by simp [at1]⟩

theorem witness_StackChangesOnlyAtTheTop :
    (at1 hardwareConfig [1] [.request 0 .pop8]).Serves 0 [1] .pop8 [] ∧ Request.pop8 ≠ .new ∧
    step (at1 hardwareConfig [1] [.request 0 .pop8]) =
      .next { at1 hardwareConfig [] [] with replies := [(0, .value (.popped8 1))] } :=
  ⟨at1_serves hw_ok _ _ _, by decide, rfl⟩

theorem witness_ResetEmptiesEveryStack : configOk hardwareConfig = true ∧
    (at1 hardwareConfig [1] [.reset]).pending = .reset :: [] := ⟨hw_ok, rfl⟩

/-- each clause: a context that ends, a request after it, and an end after it -/
theorem witness_EndedContextHasNoStep : configOk hardwareConfig = true ∧
    (at1 hardwareConfig [1] [.endContext 0]).contexts[0]? = some (.live [1]) ∧
    step { at1 hardwareConfig [] [.request 0 .len] with contexts := [.ended] } = .fault (.contextEnded 0) ∧
    step { at1 hardwareConfig [] [.endContext 0] with contexts := [.ended] } = .fault (.contextEnded 0) :=
  ⟨hw_ok, rfl, rfl, rfl⟩

/-- each clause: one context below the bound, at the bound, and a context that never began -/
theorem witness_NewBeginsTheNextContext :
    let two : Config := { hardwareConfig with nContexts := some 2 }
    let one : Config := { hardwareConfig with nContexts := some 1 }
    configOk two = true ∧ configOk one = true ∧ liveCount (at1 two [] []).contexts < 2 ∧
    1 ≤ liveCount (at1 one [] []).contexts ∧
    step (at1 two [] [.request 1 .new]) =
      .next { at1 two [] [] with contexts := [.live [], .live []], active := 1, replies := [(1, .value .newStack)] } ∧
    step (at1 one [] [.request 1 .new]) = .refused .tooManyContexts ∧
    step (at1 two [] [.request 1 .len]) = .refused (.noSuchContext 1) ∧
    step (at1 two [] [.request 2 .new]) = .refused (.noSuchContext 2) :=
  ⟨by decide, by decide, by decide, by decide, rfl, rfl, rfl, rfl⟩

theorem witness_CoincidingIdentifiers :
    step (at1 { hardwareConfig with opcAdd16 := 0 } [] []) = .refused .badConfiguration ∧
    step (at1 { hardwareConfig with opcAdd32 := 0 } [] []) = .refused .badConfiguration ∧
    step (at1 { hardwareConfig with opcAdd16 := 2 } [] []) = .refused .badConfiguration := ⟨rfl, rfl, rfl⟩

/-- each clause of the loop: a success, an error and the capacity -/
theorem witness_DriverIsTheLoop : [(0 : Byte), 0, 1, 1] ≠ [] ∧
    execute hardwareConfig [0, 0, 1, 1] [] = .done [2] (.delta ⟨4, 1⟩) ∧
    execute hardwareConfig [0, 0, 1] [] = .error (.instructionTooShort (some 0) 4 3) ∧
    execute (capped 0) [0, 0, 1, 1] [] = .capacityFault := by decide

/-- the host's placing on the reset state: the next step runs the table word -/
theorem test_placed_word_runs : seen (step (State.reset.withFetchWord 48 0x000112340001)) =
    some (some (.live [0x12, 0x35]), [(0, .value (.delta ⟨6, 2⟩))], false) := by decide

end Sys2Proof.Tests
end

section
/-! PROOF. The statements of spec/00_scope.md: the big-endian order (R9) and the refused configurations (R7). -/

namespace Sys2Proof.Machine

/-- R9's sum: the first byte of the sequence is the term at index 0, the rest of the sum is that of the tail. -/
theorem be_eq_sum (s : List Byte) :
    be s = ∑ i : Fin s.length, (s[i]).toNat * 256 ^ (s.length - 1 - i.val) := by
  induction s with
  | nil => rfl
  | cons b t ih =>
    have hterm (i : Fin t.length) : (b :: t).length - 1 - i.succ.val = t.length - 1 - i.val := by
      simp only [List.length_cons, Fin.val_succ]
      omega
    calc be (b :: t)
        = b.toNat * 256 ^ t.length + ∑ i : Fin t.length, (t[i]).toNat * 256 ^ (t.length - 1 - i.val) := by
          rw [be_cons, ← ih]
      _ = b.toNat * 256 ^ t.length
            + ∑ i : Fin t.length, (t[i]).toNat * 256 ^ ((b :: t).length - 1 - i.succ.val) := by
          simp only [hterm]
      _ = ∑ i : Fin (b :: t).length, ((b :: t)[i]).toNat * 256 ^ ((b :: t).length - 1 - i.val) :=
          (Fin.sum_univ_succ fun i : Fin (t.length + 1) =>
            ((b :: t)[i]).toNat * 256 ^ ((b :: t).length - 1 - i.val)).symm

/-- Byte `i` of the `n` bytes of `v` has the `n - 1 - i` bytes after it shifted out. -/
theorem getElem?_bytesBe {n i : Nat} (v : Nat) (h : i < n) :
    (bytesBe n v)[i]? = some (BitVec.ofNat 8 (v >>> (8 * (n - 1 - i)))) := by
  induction n generalizing i with
  | zero => omega
  | succ n ih =>
    cases i with
    | zero => simp [bytesBe, Nat.shiftRight_eq_div_pow, pow_mul]
    | succ j =>
      have hj : n + 1 - 1 - (j + 1) = n - 1 - j := by omega
      rw [bytesBe, List.getElem?_cons_succ, ih (by omega), hj]

/-- R7: no acceptable configuration has two equal identifiers. -/
theorem configOk_identifiers {cfg : Config} (h : configOk cfg = true) :
    cfg.opcAdd16 ≠ opcAdd8 ∧ cfg.opcAdd32 ≠ opcAdd8 ∧ cfg.opcAdd16 ≠ cfg.opcAdd32 := by
  simp only [configOk, Config.opcodesOk, Bool.and_eq_true, bne_iff_ne] at h
  obtain ⟨⟨-, ⟨h16, h32⟩, hne⟩, -⟩ := h
  exact ⟨h16.symm, h32.symm, hne⟩

/-- R7: at a configuration the model does not take, every step is the refusal. -/
theorem step_refused_of_not_configOk {s : State} (h : configOk s.config ≠ true) :
    step s = .refused .badConfiguration :=
  if_neg h

end Sys2Proof.Machine

open Sys2Proof.Machine

/-- Settles O8: the sum by induction on the sequence, the bytes by induction on their number, the inverses by
`be_bytesBe_of_lt` and `bytesBe_be`. -/
theorem bigEndianAssembly : Obligations.BigEndianAssembly :=
  ⟨be_eq_sum, fun _ v _ h => getElem?_bytesBe v h, fun _ _ h => be_bytesBe_of_lt h, bytesBe_be⟩

/-- Settles O57: each of the three coincidences contradicts what an acceptable configuration has. -/
theorem coincidingIdentifiersAreRefused : Obligations.CoincidingIdentifiersAreRefused := by
  intro s hcoincide
  refine step_refused_of_not_configOk fun hok => ?_
  obtain ⟨h16, h32, hne⟩ := configOk_identifiers hok
  rcases hcoincide with e16 | e32 | e
  · exact h16 e16
  · exact h32 e32
  · exact hne e

end

section
/-! PROOF. The statements of spec/10_state.md: what one step reads and changes, and the state after reset. -/

namespace Sys2Proof.Machine

/-! ### How a request ends: the stack it leaves and the replies it gives -/

/-- The stack a request that ends so leaves where it found `S`. -/
def Result.stackAfter (S : Stack) : Result → Stack
  | .done T _ => T
  | .error _ => S
  | .capacityFault => S

@[simp] theorem Result.stackAfter_done (S T : Stack) (v : Value) : (Result.done T v).stackAfter S = T := rfl
@[simp] theorem Result.stackAfter_error (S : Stack) (e : Error) : (Result.error e).stackAfter S = S := rfl
@[simp] theorem Result.stackAfter_capacityFault (S : Stack) : Result.capacityFault.stackAfter S = S := rfl

/-- The replies the host of context `c` gets from a request that ends so: one, or none with the capacity mark. -/
def Result.replies (c : Nat) : Result → List (Nat × Reply)
  | .done _ v => [(c, .value v)]
  | .error e => [(c, .error e)]
  | .capacityFault => []

/-- Settling leaves the active context with the stack of the result. -/
theorem settle_contexts_active {s : State} {S : Stack} (x : Result)
    (h : s.contexts[s.active]? = some (.live S)) :
    (s.settle x).contexts[s.active]? = some (.live (x.stackAfter S)) := by
  cases x with
  | done T v =>
    obtain ⟨hlt, -⟩ := List.getElem?_eq_some_iff.mp h
    exact List.getElem?_set_self hlt
  | error e => exact h
  | capacityFault => exact h

/-- Settling puts the result's replies on top of the record. -/
@[simp] theorem settle_replies (s : State) (x : Result) :
    (s.settle x).replies = x.replies s.active ++ s.replies := by
  cases x <;> rfl

theorem Result.fst_of_mem_replies {x : Result} {c : Nat} {p : Nat × Reply} (h : p ∈ x.replies c) : p.1 = c := by
  cases x with
  | done T v => rw [List.mem_singleton.mp h]
  | error e => rw [List.mem_singleton.mp h]
  | capacityFault => cases h

/-- Settling never clears the mark. -/
theorem settle_capacityFault_of_set {s : State} (x : Result) (h : s.capacityFault = true) :
    (s.settle x).capacityFault = true := by
  cases x with
  | done T v => exact h
  | error e => exact h
  | capacityFault => rfl

/-- Settling does not read the record of replies. -/
theorem settle_withReplies (s : State) (x : Result) (others : List (Nat × Reply)) :
    ({ s with replies := others } : State).settle x =
      { s.settle x with replies := x.replies s.active ++ others } := by
  cases x <;> rfl

/-! ### The moves that are no request of an existing context, as equations of the step -/

/-- With no move the step changes nothing. -/
theorem step_idle {s : State} (hc : configOk s.config = true) (hp : s.pending = []) : step s = .next s := by
  simp [step, serveNext, hc, hp]

/-- The `new()` at the next free place begins a context where there is room. -/
theorem step_newContext {s : State} {rest : List HostMove} (hc : configOk s.config = true)
    (hp : s.pending = .request s.contexts.length .new :: rest) (hroom : roomForContext s.config s.contexts = true) :
    step s = .next ((s.accept s.contexts.length rest).beginContext.answer (.value .newStack)) := by
  simp [step, serveNext, hc, hp, serveRequest, requestNew, hroom]

/-- An existing context ends. -/
theorem step_endContext {s : State} {c : Nat} {rest : List HostMove} {S : Stack} (hc : configOk s.config = true)
    (hp : s.pending = .endContext c :: rest) (hS : s.contexts[c]? = some (.live S)) :
    step s = .next { s with pending := rest, contexts := s.contexts.set c .ended } := by
  simp [step, serveNext, hc, hp, endContext, hS]

/-- A reset is served as `resetBlock`. -/
theorem step_reset {s : State} {rest : List HostMove} (hc : configOk s.config = true)
    (hp : s.pending = .reset :: rest) : step s = .next (resetBlock { s with pending := rest }) := by
  simp [step, serveNext, hc, hp]

/-! ### What a request of an existing context does -/

/-- The stack the owner is left with. -/
theorem step_request_owner {s t : State} {c : Nat} {S : Stack} {r : Request} {rest : List HostMove}
    (h : s.Serves c S r rest) (ht : step s = .next t) :
    t.contexts[c]? = some (.live ((requestOp s.config r S).stackAfter S)) := by
  rw [step_request h] at ht
  cases ht
  exact settle_contexts_active (s := s.accept c rest) _ h.context

/-- Every other context keeps its stack. -/
theorem step_request_other {s t : State} {c c' : Nat} {S : Stack} {r : Request} {rest : List HostMove}
    (h : s.Serves c S r rest) (ht : step s = .next t) (hne : c' ≠ c) : t.contexts[c']? = s.contexts[c']? := by
  rw [step_request h] at ht
  cases ht
  exact settle_other (s.accept c rest) _ hne

/-- The replies the owner gets. -/
theorem step_request_replies {s t : State} {c : Nat} {S : Stack} {r : Request} {rest : List HostMove}
    (h : s.Serves c S r rest) (ht : step s = .next t) :
    t.replies = (requestOp s.config r S).replies c ++ s.replies := by
  rw [step_request h] at ht
  cases ht
  exact settle_replies (s.accept c rest) _

/-! ### A stack changes only at its top -/

theorem bytes_le_four (w : Width) : w.bytes ≤ 4 := by
  cases w <;> decide

/-- A push leaves the stack with at most four more bytes on top. -/
theorem pushOp_stackAfter (cap : Option Nat) (w : Width) (v : Nat) (a : Value) (S : Stack) :
    ∃ x, x.length ≤ 4 ∧ (pushOp cap w v a S).stackAfter S = S ++ x := by
  rcases pushOp_cases cap w v a S with ⟨-, e⟩ | ⟨-, e⟩
  · exact ⟨bytesBe w.bytes v, by simpa using bytes_le_four w, by simp [e]⟩
  · exact ⟨[], by simp, by simp [e]⟩

/-- A pop leaves the stack without at most four bytes of its top. -/
theorem popOp_stackAfter (w : Width) (a : Nat → Value) (S : Stack) :
    ∃ x, x.length ≤ 4 ∧ S = (popOp w a S).stackAfter S ++ x := by
  rcases popOp_cases w a S with ⟨-, e⟩ | ⟨T, x, hS, hx, e⟩
  · exact ⟨[], by simp, by simp [e]⟩
  · exact ⟨x, hx ▸ bytes_le_four w, by simpa [e] using hS⟩

/-- An add leaves the stack with at most four more bytes on top. -/
theorem dispatchOp_stackAfter (cap : Option Nat) (op : AluOp) (w : Width) (len a b : Nat) (S : Stack) :
    ∃ x, x.length ≤ 4 ∧ (dispatchOp cap op w len a b S).stackAfter S = S ++ x := by
  rcases dispatchOp_cases cap op w len a b S with ⟨-, e⟩ | ⟨-, -, e⟩ | ⟨-, -, e⟩
  · exact ⟨[], by simp, by simp [e]⟩
  · exact ⟨bytesBe w.bytes (a + b), by simpa using bytes_le_four w, by simp [e]⟩
  · exact ⟨[], by simp, by simp [e]⟩

/-- A call of `execute` leaves the stack with at most four more bytes on top. -/
theorem execute_stackAfter (cfg : Config) (bytes : List Byte) (S : Stack) :
    ∃ x, x.length ≤ 4 ∧ (execute cfg bytes S).stackAfter S = S ++ x := by
  unfold execute
  cases decode cfg bytes with
  | error e => exact ⟨[], by simp, by simp⟩
  | ok i => cases i <;> exact dispatchOp_stackAfter ..

/-- The requests that remove bytes. -/
def Request.isPop (r : Request) : Prop := r = .pop8 ∨ r = .pop16 ∨ r = .pop32

/-- A request other than `new` appends at most four bytes at the top, or is a pop and removes at most four there. -/
theorem requestOp_stackAfter (cfg : Config) {r : Request} (S : Stack) (h : r ≠ .new) :
    (∃ x, x.length ≤ 4 ∧ (requestOp cfg r S).stackAfter S = S ++ x) ∨
    (r.isPop ∧ ∃ x, x.length ≤ 4 ∧ S = (requestOp cfg r S).stackAfter S ++ x) := by
  cases r with
  | new => exact absurd rfl h
  | len => exact .inl ⟨[], by simp, by simp [requestOp]⟩
  | push8 b => exact .inl (pushOp_stackAfter ..)
  | push16 v => exact .inl (pushOp_stackAfter ..)
  | push32 v => exact .inl (pushOp_stackAfter ..)
  | pop8 => exact .inr ⟨.inl rfl, popOp_stackAfter .w8 (fun v => .popped8 (BitVec.ofNat 8 v)) S⟩
  | pop16 => exact .inr ⟨.inr (.inl rfl), popOp_stackAfter .w16 (fun v => .popped16 (BitVec.ofNat 16 v)) S⟩
  | pop32 => exact .inr ⟨.inr (.inr rfl), popOp_stackAfter .w32 (fun v => .popped32 (BitVec.ofNat 32 v)) S⟩
  | execute bytes => exact .inl (execute_stackAfter ..)

/-! ### What every step keeps -/

/-- No step writes the configuration. -/
theorem step_config {s t : State} (h : step s = .next t) : t.config = s.config := by
  obtain ⟨-, ⟨-, rfl⟩ | ⟨c, r, rest, S, -, -, rfl⟩ | ⟨rest, -, -, rfl⟩ | ⟨c, rest, S, -, -, rfl⟩ | ⟨rest, -, rfl⟩⟩ :=
    step_next h
  · rfl
  · exact settle_config _ _
  · rfl
  · rfl
  · rfl

end Sys2Proof.Machine

open Sys2Proof Sys2Proof.Machine

/-- Settles O47: both steps settle the same stack function of the owner's stack, `requestOp`. -/
theorem onlyTheOwnerReadsOrChangesAStack : Obligations.OnlyTheOwnerReadsOrChangesAStack := by
  intro s s' t c S r rest rest' hs hs' hcfg ht
  refine ⟨fun c' hne => step_request_other hs ht hne, _, step_request hs', ?_,
    (requestOp s.config r S).replies c, step_request_replies hs ht, ?_, fun _ => Result.fst_of_mem_replies⟩
  · rw [step_request_owner hs ht, step_request_owner hs' (step_request hs'), hcfg]
  · rw [step_request_replies hs' (step_request hs'), hcfg]

/-- Settles O50: for each kind of move, the step from the state with the other record is the same move's equation. -/
theorem earlierRepliesAffectNothing : Obligations.EarlierRepliesAffectNothing := by
  intro s t others h
  obtain ⟨hc, ⟨hp, rfl⟩ | ⟨c, r, rest, S, hp, hS, rfl⟩ | ⟨rest, hp, hroom, rfl⟩ | ⟨c, rest, S, hp, hS, rfl⟩ |
    ⟨rest, hp, rfl⟩⟩ := step_next h
  · exact ⟨[], rfl, step_idle hc hp⟩
  · have hserves : ({ s with replies := others } : State).Serves c S r rest := ⟨hc, hS, hp⟩
    refine ⟨(requestOp s.config r S).replies c, settle_replies .., ?_⟩
    rw [step_request hserves]
    exact congrArg _ (settle_withReplies (s.accept c rest) _ others)
  · exact ⟨[(s.contexts.length, .value .newStack)], rfl, step_newContext hc hp hroom⟩
  · exact ⟨[], rfl, step_endContext hc hp hS⟩
  · exact ⟨[], rfl, step_reset hc hp⟩

/-- Settles O51: the table is a function of the configuration, which no step writes. -/
theorem configurationNeverChanges : Obligations.ConfigurationNeverChanges :=
  fun _ _ h => ⟨step_config h, congrArg opcodeTable (step_config h)⟩

/-- Settles O52: of the moves a step can serve, only the reset clears the mark. -/
theorem capacityMarkIsSticky : Obligations.CapacityMarkIsSticky := by
  intro s t h hmark hnoreset
  obtain ⟨-, ⟨-, rfl⟩ | ⟨c, r, rest, S, -, -, rfl⟩ | ⟨rest, -, -, rfl⟩ | ⟨c, rest, S, -, -, rfl⟩ | ⟨rest, hp, -⟩⟩ :=
    step_next h
  · exact hmark
  · exact settle_capacityFault_of_set _ hmark
  · exact hmark
  · exact hmark
  · exact absurd hp (hnoreset rest)

/-- Settles O53: the owner is left with what `requestOp_stackAfter` says, and bytes appended to a stack that was not empty
leave it not empty. -/
theorem stackChangesOnlyAtTheTop : Obligations.StackChangesOnlyAtTheTop := by
  intro s t c S r rest hs hnew ht
  refine ⟨_, step_request_owner hs ht, ?_⟩
  rcases requestOp_stackAfter s.config S hnew with ⟨x, hx, e⟩ | ⟨hpop, x, hx, e⟩
  · rw [e]
    refine ⟨.inl (⟨x, rfl⟩), by simpa using hx, by simp; omega, fun hS hT => ?_⟩
    exact absurd (List.append_eq_nil_iff.mp hT).1 hS
  · have hlen := congrArg List.length e
    rw [List.length_append] at hlen
    exact ⟨.inr ⟨x, e.symm⟩, by omega, by omega, fun _ _ => hpop⟩

/-- Settles O1, by evaluation of the reset state and of the table at the hardware's configuration. -/
theorem resetLeavesEmptyStacks : Obligations.ResetLeavesEmptyStacks :=
  ⟨fun _ hx => List.mem_singleton.mp hx, rfl, rfl⟩

/-- Settles O2: the bounds of the invariant are absent at reset, its mark is clear and it has no reply yet. -/
theorem resetHasInvariant : Obligations.ResetHasInvariant where
  config := by decide
  capacity := fun _ h => nomatch h
  contexts := fun _ h => nomatch h
  faultMark := fun _ => rfl
  replies := fun _ _ h => nomatch h

end

section
/-! PROOF. The statement of spec/20_memory.md: requests of two contexts have no ordering between them (R49, R50). -/

namespace Sys2Proof.Machine

/-- A run goes on from the state that its first step answers. -/
theorem core_run_succ {k : Nat} {s m : State} (h : step s = .next m) : core.run (k + 1) s = core.run k m := by
  have hcore : core.step s = .next m := h
  simp only [Host.Core.run, hcore]

/-! ### Each field after one request -/

theorem settle_capacityFault (s : State) (x : Result) :
    (s.settle x).capacityFault = (s.capacityFault || decide (x = .capacityFault)) := by
  cases x <;> simp [State.settle]

section
variable {s t : State} {c : Nat} {S : Stack} {r : Request} {rest : List HostMove}

/-- Only the owner's place in the list of contexts is written. -/
theorem step_request_contexts (h : s.Serves c S r rest) (ht : step s = .next t) :
    t.contexts = s.contexts.set c (.live ((requestOp s.config r S).stackAfter S)) := by
  obtain ⟨hlt, -⟩ := List.getElem?_eq_some_iff.mp h.context
  refine List.ext_getElem? fun i => ?_
  by_cases hi : i = c
  · rw [hi, step_request_owner h ht, List.getElem?_set_self hlt]
  · rw [step_request_other h ht hi, List.getElem?_set_ne (Ne.symm hi)]

theorem step_request_capacityFault (h : s.Serves c S r rest) (ht : step s = .next t) :
    t.capacityFault = (s.capacityFault || decide (requestOp s.config r S = .capacityFault)) := by
  rw [step_request h] at ht
  cases ht
  exact settle_capacityFault (s.accept c rest) _

theorem step_request_pending (h : s.Serves c S r rest) (ht : step s = .next t) : t.pending = rest := by
  rw [step_request h] at ht
  cases ht
  exact settle_pending (s.accept c rest) _

/-- After a request of one context the queued request of another one is next, and its stack is still the same. -/
theorem State.Serves.next_other {d : Nat} {T : Stack} {q : Request} (h : s.Serves c S r (.request d q :: rest))
    (hT : s.contexts[d]? = some (.live T)) (hne : d ≠ c) (ht : step s = .next t) : t.Serves d T q rest where
  config := (step_config ht).symm ▸ h.config
  context := (step_request_other h ht hne).trans hT
  pending := step_request_pending h ht

end

/-! ### Each field after two requests of two contexts -/

/-- Both requests end as they would alone: each result is a function of its own context's stack before the two. -/
theorem core_run_two_requests {s t : State} {c d : Nat} {S T : Stack} {r q : Request} {rest : List HostMove}
    (h : s.Serves c S r (.request d q :: rest)) (hT : s.contexts[d]? = some (.live T)) (hne : d ≠ c)
    (ht : core.run 2 s = .next t) :
    t.contexts = (s.contexts.set c (.live ((requestOp s.config r S).stackAfter S))).set d
      (.live ((requestOp s.config q T).stackAfter T)) ∧
    t.capacityFault = ((s.capacityFault || decide (requestOp s.config r S = .capacityFault)) ||
      decide (requestOp s.config q T = .capacityFault)) ∧
    t.config = s.config ∧ t.pending = rest ∧
    t.replies = (requestOp s.config q T).replies d ++ ((requestOp s.config r S).replies c ++ s.replies) := by
  obtain ⟨m, hm⟩ : ∃ m, step s = .next m := ⟨_, step_request h⟩
  have hd := h.next_other hT hne hm
  obtain ⟨u, hmt⟩ : ∃ u, step m = .next u := ⟨_, step_request hd⟩
  rw [core_run_succ hm, core_run_succ hmt] at ht
  obtain rfl : u = t := Host.Outcome.next.inj ht
  have hcfg := step_config hm
  refine ⟨?_, ?_, (step_config hmt).trans hcfg, step_request_pending hd hmt, ?_⟩
  · rw [step_request_contexts hd hmt, step_request_contexts h hm, hcfg]
  · rw [step_request_capacityFault hd hmt, step_request_capacityFault h hm, hcfg]
  · rw [step_request_replies hd hmt, step_request_replies h hm, hcfg]

/-- A request gives no reply to another context. -/
theorem Result.filter_replies_of_ne (x : Result) {c k : Nat} (h : k ≠ c) :
    (x.replies c).filter (·.1 == k) = [] := by
  refine List.filter_eq_nil_iff.mpr fun p hp hk => h ?_
  rw [← eq_of_beq hk, Result.fst_of_mem_replies hp]

/-- What each context got does not depend on the order in which the replies to two contexts were recorded. -/
theorem filter_replies_comm (x y : Result) {c d : Nat} (hne : c ≠ d) (l : List (Nat × Reply)) (k : Nat) :
    (y.replies d ++ (x.replies c ++ l)).filter (·.1 == k) =
      (x.replies c ++ (y.replies d ++ l)).filter (·.1 == k) := by
  simp only [List.filter_append]
  by_cases hk : k = c
  · rw [y.filter_replies_of_ne (hk.trans_ne hne), List.nil_append, List.nil_append]
  · rw [x.filter_replies_of_ne hk, List.nil_append, List.nil_append]

end Sys2Proof.Machine

open Sys2Proof Sys2Proof.Machine

/-- Settles O48: in both orders the two requests give the same two results, which write two different places of the list
of contexts and answer two different hosts. -/
theorem requestsOfTwoContextsCommute : Obligations.RequestsOfTwoContextsCommute := by
  intro s t u c d S T r q rest hne hc hS hT ht hu
  obtain ⟨tContexts, tMark, tConfig, tPending, tReplies⟩ :=
    core_run_two_requests (s := { s with pending := .request c r :: .request d q :: rest })
      ⟨hc, hS, rfl⟩ hT hne.symm ht
  obtain ⟨uContexts, uMark, uConfig, uPending, uReplies⟩ :=
    core_run_two_requests (s := { s with pending := .request d q :: .request c r :: rest })
      ⟨hc, hT, rfl⟩ hS hne hu
  refine ⟨?_, ?_, tConfig.trans uConfig.symm, tPending.trans uPending.symm, fun k => ?_⟩
  · rw [tContexts, uContexts]
    exact List.set_comm _ _ hne
  · rw [tMark, uMark]
    exact Bool.or_right_comm _ _ _
  · simp only [State.repliesOf, tReplies, uReplies]
    exact congrArg _ (filter_replies_comm _ _ hne _ _)

end

section
/-! PROOF. The statements of spec/30_encoding.md: the formats (R61), the checks of decode in their order (R62 to R65),
the round trip of encoder and decoder (R67 to R69), the window (R72), the assembler (R73), and which instruction a step
runs (R71). -/

namespace Sys2Proof

/-! ### An instruction by its width and its two addends -/

/-- The first operand, `addend1` of R61. -/
def Instr.addend1 : Instr → Nat
  | .add8 a _ => a.toNat
  | .add16 a _ => a.toNat
  | .add32 a _ => a.toNat

/-- The second operand, `addend2` of R61. -/
def Instr.addend2 : Instr → Nat
  | .add8 _ b => b.toNat
  | .add16 _ b => b.toNat
  | .add32 _ b => b.toNat

theorem Instr.addend1_lt (i : Instr) : i.addend1 < 256 ^ i.width.bytes := by
  cases i <;> exact BitVec.isLt _

theorem Instr.addend2_lt (i : Instr) : i.addend2 < 256 ^ i.width.bytes := by
  cases i <;> exact BitVec.isLt _

/-- An instruction is made of its width and its addends. -/
theorem instrOf_addends (i : Instr) : instrOf .add i.width i.addend1 i.addend2 = i := by
  cases i <;> simp [instrOf, Instr.width, Instr.addend1, Instr.addend2]

theorem addend1_instrOf (op : AluOp) (w : Width) {a : Nat} (b : Nat) (ha : a < 256 ^ w.bytes) :
    (instrOf op w a b).addend1 = a := by
  cases op
  cases w <;> exact Nat.mod_eq_of_lt ha

theorem addend2_instrOf (op : AluOp) (w : Width) (a : Nat) {b : Nat} (hb : b < 256 ^ w.bytes) :
    (instrOf op w a b).addend2 = b := by
  cases op
  cases w <;> exact Nat.mod_eq_of_lt hb

theorem Instr.wellFormed_iff {cfg : Config} {i : Instr} : i.wellFormed cfg = true ↔ i.width ∈ cfg.widths :=
  List.contains_iff_mem

theorem Width.le_maxValue_iff (w : Width) (n : Nat) : n ≤ w.maxValue ↔ n < 256 ^ w.bytes :=
  Nat.le_sub_one_iff_lt (by positivity)

end Sys2Proof

namespace Sys2Proof.Machine

/-! ### Slices and the big-endian order -/

/-- A slice reads the middle of three parts where its bounds are theirs. -/
theorem slice_middle (x y z : List Byte) {i j : Nat} (hi : i = x.length) (hj : j = i + y.length) :
    slice (x ++ (y ++ z)) i j = y := by
  subst hi hj
  rw [slice, List.take_length_add_append, List.drop_left, List.take_left]

/-- Two slices that meet are one. -/
theorem slice_append_slice (s : List Byte) {i j k : Nat} (hij : i ≤ j) (hjk : j ≤ k) :
    slice s i j ++ slice s j k = slice s i k := by
  have hj : s.take j = (s.take k).take j := by rw [List.take_take, Nat.min_eq_left hjk]
  calc slice s i j ++ slice s j k
      = ((s.take k).drop i).take (j - i) ++ ((s.take k).drop i).drop (j - i) := by
        rw [slice, hj, List.drop_take, slice, List.drop_drop, Nat.add_sub_cancel' hij]
    _ = slice s i k := List.take_append_drop _ _

/-- A slice does not see the bytes past its end. -/
theorem slice_take (s : List Byte) {i j n : Nat} (h : j ≤ n) : slice (s.take n) i j = slice s i j := by
  rw [slice, List.take_take, Nat.min_eq_left h, slice]

/-- The value of a whole slice, laid out at its length, gives the slice. -/
theorem bytesBe_be_slice (s : List Byte) {i j n : Nat} (hn : j - i = n) (hj : j ≤ s.length) :
    bytesBe n (be (slice s i j)) = slice s i j := by
  have hlen : (slice s i j).length = n := by rw [slice_length, Nat.min_eq_left hj, hn]
  rw [← hlen, bytesBe_be]

theorem be_slice_lt (s : List Byte) {i j n : Nat} (h : j ≤ i + n) : be (slice s i j) < 256 ^ n := by
  have hlen : (slice s i j).length ≤ n := by
    rw [slice_length]
    omega
  exact (be_lt _).trans_le (Nat.pow_le_pow_right (by decide) hlen)

theorem be_append (s t : List Byte) : be (s ++ t) = be s * 256 ^ t.length + be t := by
  induction s with
  | nil => simp
  | cons b s ih =>
    simp only [List.cons_append, be_cons, ih, List.length_append, pow_add]
    ring

/-- The first byte of a laid-out word is the one at its bit position. -/
theorem bytesBe_succ_toNat {m : Nat} (n : Nat) (v : BitVec m) :
    bytesBe (n + 1) v.toNat = v.extractLsb' (8 * n) 8 :: bytesBe n v.toNat := by
  rw [bytesBe, BitVec.extractLsb', Nat.shiftRight_eq_div_pow, pow_mul]
  rfl

@[simp] theorem bytesBe_zero (v : Nat) : bytesBe 0 v = [] := rfl

/-! ### The fields of an instruction's bytes -/

/-- The identifier of two first bytes is their concatenation (R63). -/
theorem opcodeField_cons_cons (b0 b1 : Byte) (t : List Byte) : opcodeField (b0 :: b1 :: t) = b0 ++ b1 := by
  have hslice : slice (b0 :: b1 :: t) 0 opcodeBytes = [b0, b1] := rfl
  have h0 := b0.isLt
  have h1 := b1.isLt
  apply BitVec.eq_of_toNat_eq
  rw [opcodeField, hslice, BitVec.toNat_ofNat, BitVec.toNat_append, ← Nat.shiftLeft_add_eq_or_of_lt h1,
    Nat.shiftLeft_eq]
  simp only [be_cons, be_nil, List.length_cons, List.length_nil]
  omega

theorem opcodeField_take (bytes : List Byte) {n : Nat} (h : 2 ≤ n) :
    opcodeField (bytes.take n) = opcodeField bytes := by
  rw [opcodeField, opcodeBytes, slice_take _ h, opcodeField, opcodeBytes]

theorem addend1Field_lt (w : Width) (bytes : List Byte) : addend1Field w bytes < 256 ^ w.bytes :=
  be_slice_lt bytes le_rfl

theorem addend2Field_lt (w : Width) (bytes : List Byte) : addend2Field w bytes < 256 ^ w.bytes :=
  be_slice_lt bytes (by omega)

theorem layFields_append (id : OpcodeId) (w : Width) (a b : Nat) (t : List Byte) :
    layFields id w a b ++ t =
      bytesBe opcodeBytes id.toNat ++ (bytesBe w.bytes a ++ (bytesBe w.bytes b ++ t)) := by
  simp only [layFields, List.append_assoc]

theorem opcodeField_layFields_append (id : OpcodeId) (w : Width) (a b : Nat) (t : List Byte) :
    opcodeField (layFields id w a b ++ t) = id := by
  rw [layFields_append, opcodeField, ← List.nil_append (bytesBe opcodeBytes _ ++ _),
    slice_middle (i := 0) [] _ _ rfl (by simp), be_bytesBe_of_lt id.isLt, BitVec.ofNat_toNat, BitVec.setWidth_eq]

theorem addend1Field_layFields_append (id : OpcodeId) {w : Width} {a : Nat} (b : Nat) (t : List Byte)
    (ha : a < 256 ^ w.bytes) : addend1Field w (layFields id w a b ++ t) = a := by
  rw [layFields_append, addend1Field, slice_middle _ _ _ (by simp) (by simp), be_bytesBe_of_lt ha]

theorem addend2Field_layFields_append (id : OpcodeId) {w : Width} (a : Nat) {b : Nat} (t : List Byte)
    (hb : b < 256 ^ w.bytes) : addend2Field w (layFields id w a b ++ t) = b := by
  rw [layFields_append, addend2Field, ← List.append_assoc, slice_middle _ _ _ (by simp)
    (by rw [bytesBe_length]; omega), be_bytesBe_of_lt hb]

/-- The fields of a whole instruction, laid out again, are its bytes: no bit lies outside the three fields. -/
theorem layFields_of_fields {w : Width} {bytes : List Byte} (h : minLen w ≤ bytes.length) :
    layFields (opcodeField bytes) w (addend1Field w bytes) (addend2Field w bytes) = bytes.take (minLen w) := by
  rw [minLen] at h
  have hid : (opcodeField bytes).toNat = be (slice bytes 0 opcodeBytes) :=
    Nat.mod_eq_of_lt (be_slice_lt (n := opcodeBytes) bytes (by omega))
  rw [layFields, hid, addend1Field, addend2Field, bytesBe_be_slice _ (Nat.sub_zero _) (by omega),
    bytesBe_be_slice _ (by omega) (by omega), bytesBe_be_slice _ (by omega) h,
    slice_append_slice _ (by omega) (by omega), slice_append_slice _ (by omega) (by omega)]
  rfl

/-- The opcode above both operands, each at its bit position of the whole integer (R61). -/
theorem be_layFields (id : OpcodeId) {w : Width} {a b : Nat} (ha : a < 256 ^ w.bytes) (hb : b < 256 ^ w.bytes) :
    be (layFields id w a b) = id.toNat * 256 ^ (2 * w.bytes) + a * 256 ^ w.bytes + b := by
  rw [layFields, be_append, be_append, be_bytesBe_of_lt ha, be_bytesBe_of_lt hb, be_bytesBe_of_lt id.isLt,
    bytesBe_length, bytesBe_length]
  ring

/-! ### The bytes of an instruction -/

/-- The encoder lays out the identifier of the instruction's row of the table, then its addends. -/
theorem encode_eq_layFields (cfg : Config) (i : Instr) :
    encode cfg i = layFields (descriptorOf cfg i.width).id i.width i.addend1 i.addend2 := by
  cases i <;> rfl

theorem encode_length (cfg : Config) (i : Instr) : (encode cfg i).length = minLen i.width := by
  cases i with
  | add8 a b => exact Laws.EncodeLength.add8 a b cfg
  | add16 a b => exact Laws.EncodeLength.add16 a b cfg
  | add32 a b => exact Laws.EncodeLength.add32 a b cfg

theorem be_encode (cfg : Config) (i : Instr) :
    be (encode cfg i) = (descriptorOf cfg i.width).id.toNat * 256 ^ (2 * i.width.bytes)
      + i.addend1 * 256 ^ i.width.bytes + i.addend2 := by
  rw [encode_eq_layFields, be_layFields _ i.addend1_lt i.addend2_lt]

/-! ### The opcode table -/

/-- R7: an acceptable configuration has the one-byte width. -/
theorem configOk_w8_mem {cfg : Config} (h : configOk cfg = true) : Width.w8 ∈ cfg.widths := by
  simp only [configOk, Config.widthsOk, Bool.and_eq_true, List.contains_iff_mem] at h
  obtain ⟨⟨⟨hw8, -⟩, -⟩, -⟩ := h
  exact hw8

/-- The least length of an instruction is 4, 6 or 10 (R69). -/
theorem minLen_cases (w : Width) : minLen w = 4 ∨ minLen w = 6 ∨ minLen w = 10 := by
  cases w <;> decide

theorem two_le_minLen (w : Width) : 2 ≤ minLen w :=
  Nat.le_add_right _ _

theorem descriptorOf_mem {cfg : Config} {w : Width} (h : w ∈ cfg.widths) : descriptorOf cfg w ∈ opcodeTable cfg :=
  List.mem_map_of_mem h

/-- At an acceptable configuration two rows of the table differ in their identifiers (R7). -/
theorem descriptorOf_id_inj {cfg : Config} (h : configOk cfg = true) {w w' : Width}
    (e : (descriptorOf cfg w).id = (descriptorOf cfg w').id) : w = w' := by
  obtain ⟨h16, h32, hne⟩ := configOk_identifiers h
  match w, w', e with
  | .w8, .w8, _ | .w16, .w16, _ | .w32, .w32, _ => rfl
  | .w8, .w16, e => exact absurd e.symm h16
  | .w8, .w32, e => exact absurd e.symm h32
  | .w16, .w8, e => exact absurd e h16
  | .w16, .w32, e => exact absurd e hne
  | .w32, .w8, e => exact absurd e h32
  | .w32, .w16, e => exact absurd e.symm hne

/-- The identifiers with an entry are those of the rows of the present widths. -/
theorem lookup_isSome_iff {cfg : Config} {id : OpcodeId} :
    (lookup cfg id).isSome = true ↔ ∃ w ∈ cfg.widths, (descriptorOf cfg w).id = id := by
  simp [lookup, opcodeTable, List.find?_isSome]

/-- The same with the identifiers written out: ADD8's is in the table of every acceptable configuration (R66). -/
theorem lookup_isSome_iff_identifier {cfg : Config} (h : configOk cfg = true) {id : OpcodeId} :
    (lookup cfg id).isSome = true ↔
      (id = opcAdd8 ∨ (Width.w16 ∈ cfg.widths ∧ id = cfg.opcAdd16) ∨
        (Width.w32 ∈ cfg.widths ∧ id = cfg.opcAdd32)) := by
  rw [lookup_isSome_iff]
  constructor
  · rintro ⟨w, hw, rfl⟩
    cases w with
    | w8 => exact .inl rfl
    | w16 => exact .inr (.inl ⟨hw, rfl⟩)
    | w32 => exact .inr (.inr ⟨hw, rfl⟩)
  · rintro (rfl | ⟨hw, rfl⟩ | ⟨hw, rfl⟩)
    · exact ⟨.w8, configOk_w8_mem h, rfl⟩
    · exact ⟨.w16, hw, rfl⟩
    · exact ⟨.w32, hw, rfl⟩

theorem lookup_eq_none {cfg : Config} {id : OpcodeId} (h : ∀ d ∈ opcodeTable cfg, d.id ≠ id) :
    lookup cfg id = none :=
  List.find?_eq_none.mpr fun d hd => by simpa using h d hd

/-- Each present width's row is the one its identifier finds. -/
theorem lookup_descriptorOf {cfg : Config} (h : configOk cfg = true) {w : Width} (hw : w ∈ cfg.widths) :
    lookup cfg (descriptorOf cfg w).id = some (descriptorOf cfg w) := by
  obtain ⟨d, hd⟩ := Option.isSome_iff_exists.mp (lookup_isSome_iff.mpr ⟨w, hw, rfl⟩)
  obtain ⟨w', -, rfl, hid⟩ := lookup_some hd
  rw [hd, descriptorOf_id_inj h hid]

/-! ### The four answers of decode, in the order of its checks -/

section
variable {cfg : Config} {bytes : List Byte}

theorem decode_of_length_lt_two (h : bytes.length < 2) :
    decode cfg bytes = .error (.instructionTooShort none 2 bytes.length) :=
  if_pos h

theorem decode_of_lookup_none (h2 : 2 ≤ bytes.length) (hl : lookup cfg (opcodeField bytes) = none) :
    decode cfg bytes = .error (.unknownOpcode (opcodeField bytes)) := by
  rw [decode, opcodeBytes, if_neg (Nat.not_lt.mpr h2), hl]

theorem decode_of_length_lt_minimumLength {d : Descriptor} (h2 : 2 ≤ bytes.length)
    (hl : lookup cfg (opcodeField bytes) = some d) (hm : bytes.length < d.minimumLength) :
    decode cfg bytes = .error (.instructionTooShort (some (opcodeField bytes)) d.minimumLength bytes.length) := by
  rw [decode, opcodeBytes, if_neg (Nat.not_lt.mpr h2), hl]
  exact if_pos hm

theorem decode_of_lookup {d : Descriptor} (h2 : 2 ≤ bytes.length)
    (hl : lookup cfg (opcodeField bytes) = some d) (hm : d.minimumLength ≤ bytes.length) :
    decode cfg bytes = .ok (instrOf d.operation d.operandWidth
      (addend1Field d.operandWidth bytes) (addend2Field d.operandWidth bytes)) := by
  rw [decode, opcodeBytes, if_neg (Nat.not_lt.mpr h2), hl]
  exact if_neg (Nat.not_lt.mpr hm)

/-- Decode reads no byte from `n` on, where `n` covers the opcode and the instruction it names (R68, R72): a check
that fails saw fewer than `n` bytes, and the fields of an instruction end before `n`. -/
theorem decode_take {n : Nat} (hn : 2 ≤ n)
    (hd : ∀ d, lookup cfg (opcodeField bytes) = some d → d.minimumLength ≤ n) :
    decode cfg (bytes.take n) = decode cfg bytes := by
  have hwhole (h : bytes.length ≤ n) : decode cfg (bytes.take n) = decode cfg bytes := by
    rw [List.take_of_length_le h]
  have hop := opcodeField_take bytes hn
  have hlen : (bytes.take n).length = min n bytes.length := List.length_take
  by_cases h2 : bytes.length < 2
  · exact hwhole (by omega)
  cases hl : lookup cfg (opcodeField bytes) with
  | none =>
    rw [decode_of_lookup_none (by omega) hl, decode_of_lookup_none (by omega) (by rw [hop, hl]), hop]
  | some d =>
    have hmin := hd d hl
    by_cases hm : bytes.length < d.minimumLength
    · exact hwhole (by omega)
    rw [decode_of_lookup (by omega) hl (by omega), decode_of_lookup (by omega) (by rw [hop, hl]) (by omega)]
    obtain ⟨w, -, rfl, -⟩ := lookup_some hl
    rw [descriptorOf_minimumLength, minLen] at hmin
    rw [descriptorOf_operandWidth, addend1Field, slice_take _ (by omega), addend2Field, slice_take _ hmin,
      addend1Field, addend2Field]

end

/-! ### Decode and encode -/

/-- Decode reads back what the encoder laid out, whatever follows it. -/
theorem decode_encode_append {cfg : Config} {i : Instr} (t : List Byte) (h : configOk cfg = true)
    (hi : i.width ∈ cfg.widths) : decode cfg (encode cfg i ++ t) = .ok i := by
  have hlen : minLen i.width ≤ (encode cfg i ++ t).length := by
    rw [List.length_append, encode_length]
    exact Nat.le_add_right _ _
  have hop : opcodeField (encode cfg i ++ t) = (descriptorOf cfg i.width).id := by
    rw [encode_eq_layFields, opcodeField_layFields_append]
  have hlookup := lookup_descriptorOf h hi
  rw [← hop] at hlookup
  rw [decode_of_lookup ((two_le_minLen _).trans hlen) hlookup (by simpa using hlen),
    descriptorOf_operation, descriptorOf_operandWidth, encode_eq_layFields,
    addend1Field_layFields_append _ _ _ i.addend1_lt, addend2Field_layFields_append _ _ _ i.addend2_lt,
    instrOf_addends]

/-- The encoder lays out again the bytes decode read. -/
theorem encode_of_decode {cfg : Config} {i : Instr} {bytes : List Byte} (h : decode cfg bytes = .ok i) :
    encode cfg i = bytes.take (minLen i.width) := by
  obtain ⟨-, -, hlookup, hlen, hi⟩ := decode_ok h
  obtain ⟨w, -, hw, hid⟩ := lookup_some hlookup
  rw [← hw] at hid
  have ha : i.addend1 = addend1Field i.width bytes :=
    (congrArg Instr.addend1 hi).trans (addend1_instrOf _ _ _ (addend1Field_lt _ _))
  have hb : i.addend2 = addend2Field i.width bytes :=
    (congrArg Instr.addend2 hi).trans (addend2_instrOf _ _ _ (addend2Field_lt _ _))
  rw [encode_eq_layFields, hid, ha, hb, layFields_of_fields hlen]

/-! ### The assembler -/

theorem literalsFit_iff (w : Width) (a b : Nat) :
    literalsFit ⟨w, a, b⟩ = true ↔ a < 256 ^ w.bytes ∧ b < 256 ^ w.bytes := by
  simp only [literalsFit, decide_eq_true_eq, Width.le_maxValue_iff]

/-! ### An `execute` request in the step -/

/-- An `execute` request whose bytes decode to an error gives the host that error, and nothing else changes. -/
theorem step_execute_error {s : State} {c : Nat} {S : Stack} {rest : List HostMove} {bytes : List Byte} {e : Error}
    (h : s.Serves c S (.execute bytes) rest) (hd : decode s.config bytes = .error e) :
    step s = .next (s.afterError c rest e) := by
  have hop : requestOp s.config (.execute bytes) S = .error e := by simp only [requestOp, execute, hd]
  rw [step_request h, hop]
  rfl

/-- An `execute` request whose bytes decode to an instruction runs it. -/
theorem step_execute_ok {s : State} {c : Nat} {rest : List HostMove} {bytes : List Byte} {i : Instr}
    (hc : configOk s.config = true) (hp : s.pending = .request c (.execute bytes) :: rest)
    (hd : decode s.config bytes = .ok i) : step s = exec i (s.accept c rest) := by
  simp only [step, serveNext, hc, if_true, hp, serveRequest, requestExecute, accept_config, hd]

/-- The host's placing puts the request first, in a context that exists. -/
theorem placeExecute_spec (s : State) (bytes : List Byte) :
    ∃ c S, (placeExecute s bytes).contexts[c]? = some (.live S) ∧
      (placeExecute s bytes).pending = .request c (.execute bytes) :: s.pending ∧
      (placeExecute s bytes).config = s.config := by
  cases hf : firstLive s.contexts with
  | some c =>
    obtain ⟨S, hS⟩ := firstLive_some hf
    refine ⟨c, S, ?_⟩
    simpa [placeExecute, hf] using hS
  | none =>
    refine ⟨s.contexts.length, [], ?_⟩
    simp [placeExecute, hf]

end Sys2Proof.Machine

open Sys2Proof Sys2Proof.Machine

/-- Settles O4: the identifier laid out finds the instruction's own row, and its fields read back the addends. -/
theorem decodeOfEncodeIsInstruction : Obligations.DecodeOfEncodeIsInstruction :=
  fun _ _ t hcfg hi => decode_encode_append t hcfg (Instr.wellFormed_iff.mp hi)

/-- Settles O5: the encoding is the bytes up to `minLen`, which are followed by the rest. -/
theorem decodedBytesAreItsEncoding : Obligations.DecodedBytesAreItsEncoding := by
  intro cfg i bytes _ h
  obtain ⟨-, hw, -⟩ := decode_ok h
  refine ⟨Instr.wellFormed_iff.mpr hw, ?_⟩
  rw [encode_of_decode h, List.take_append_drop]

/-- Settles O7: the bytes by `bytesBe_succ_toNat`, the integer by `be_encode`, the length by `encode_length`. -/
theorem formatsLayFieldsBigEndian : Obligations.FormatsLayFieldsBigEndian := by
  refine ⟨fun cfg a b => ⟨?_, be_encode cfg (.add8 a b), encode_length cfg (.add8 a b)⟩,
    fun cfg a b => ⟨?_, be_encode cfg (.add16 a b), encode_length cfg (.add16 a b)⟩,
    fun cfg a b => ⟨?_, be_encode cfg (.add32 a b), encode_length cfg (.add32 a b)⟩⟩
  · have hid : bytesBe opcodeBytes opcAdd8.toNat = [0x00, 0x00] := rfl
    simp [encode, layFields, hid, Width.bytes, bytesBe_succ_toNat]
  · simp [encode, layFields, opcodeBytes, Width.bytes, bytesBe_succ_toNat]
  · simp [encode, layFields, opcodeBytes, Width.bytes, bytesBe_succ_toNat]

/-- Settles O9: every entry is the row of a present width, and rows of two widths differ in their identifiers. -/
theorem opcodeTableHasExactlyThePresentWidths : Obligations.OpcodeTableHasExactlyThePresentWidths := by
  intro cfg hcfg
  refine ⟨fun _ => lookup_isSome_iff_identifier hcfg, fun d hd => ?_, fun w => ⟨fun hw => ?_, ?_⟩,
    fun d hd d' hd' e => ?_⟩
  · obtain ⟨w, hw, rfl⟩ := opcodeTable_mem hd
    refine ⟨lookup_descriptorOf hcfg hw, ?_⟩
    rw [descriptorOf_minimumLength, descriptorOf_operandWidth, minLen, opcodeBytes]
  · exact ⟨_, descriptorOf_mem hw, descriptorOf_operandWidth cfg w⟩
  · rintro ⟨d, hd, rfl⟩
    obtain ⟨w, hw, rfl⟩ := opcodeTable_mem hd
    rwa [descriptorOf_operandWidth]
  · obtain ⟨w, -, rfl⟩ := opcodeTable_mem hd
    obtain ⟨w', -, rfl⟩ := opcodeTable_mem hd'
    rw [descriptorOf_operandWidth, descriptorOf_operandWidth] at e
    rw [e]

/-- Settles O10: the first check of decode fails. -/
theorem tooShortForTheOpcode : Obligations.TooShortForTheOpcode :=
  fun _ _ _ _ _ h hlen => step_execute_error h (decode_of_length_lt_two hlen)

/-- Settles O11: the lookup of the two bytes fails. -/
theorem unknownIdentifierFails : Obligations.UnknownIdentifierFails := by
  intro s c S rest b0 b1 t h hnone
  rw [← opcodeField_cons_cons b0 b1 t] at hnone ⊢
  exact step_execute_error h (decode_of_lookup_none (by simp) (lookup_eq_none hnone))

/-- Settles O12: the lookup finds `d`, the only entry with its identifier, and the check of its length fails. -/
theorem tooShortForTheInstruction : Obligations.TooShortForTheInstruction := by
  intro s c S rest b0 b1 t h d hd hid
  obtain ⟨w, hw, rfl⟩ := opcodeTable_mem hd
  refine ⟨by simpa using minLen_cases w, fun hlen => ?_⟩
  rw [← opcodeField_cons_cons b0 b1 t] at hid
  have hlookup := lookup_descriptorOf h.config hw
  rw [hid] at hlookup ⊢
  exact step_execute_error h (decode_of_length_lt_minimumLength (by simp) hlookup hlen)

/-- Settles O13: no instruction is longer than the window. -/
theorem tenByteWindowSuffices : Obligations.TenByteWindowSuffices := by
  refine fun cfg bytes => decode_take (by decide) fun d hd => ?_
  obtain ⟨w, -, rfl, -⟩ := lookup_some hd
  have := minLen_cases w
  rw [descriptorOf_minimumLength, windowBytes]
  omega

/-- Settles O14: the sequence before the appended bytes is a window that covers the instruction. -/
theorem trailingBytesAreIgnored : Obligations.TrailingBytesAreIgnored := by
  intro cfg bytes t d h2 hl hm
  have hop := opcodeField_take (bytes ++ t) h2
  rw [List.take_left] at hop
  have hwindow := decode_take (cfg := cfg) (bytes := bytes ++ t) h2 fun d' hd' => by
    rw [← hop, hl] at hd'
    rwa [← Option.some.inj hd']
  rw [← hwindow, List.take_left]

/-- Settles O15: a statement that fits is the encoding of its instruction, and literals fit below `256^w`. -/
theorem assembledStatementDecodes : Obligations.AssembledStatementDecodes := by
  intro cfg w a b hcfg hw
  refine ⟨fun ha hb => ⟨encode cfg (instrOf .add w a b), ?_, ?_⟩, fun hbig => ?_⟩
  · have hfit := (literalsFit_iff w a b).mpr ⟨ha, hb⟩
    simp only [assemble, hfit, List.contains_iff_mem.mpr hw, Bool.and_self, if_true]
  · simpa using decode_encode_append (i := instrOf .add w a b) [] hcfg (by rwa [instrOf_width])
  · have hfit : literalsFit ⟨w, a, b⟩ = false := by
      rw [← Bool.not_eq_true, literalsFit_iff]
      omega
    simp only [assemble, hfit, Bool.false_and, Bool.false_eq_true, if_false]

/-- Settles O17: the placed request is the next move, in a context that exists. -/
theorem placedTableWordRunsNext : Obligations.PlacedTableWordRunsNext := by
  intro s nbits w i hcfg hd
  obtain ⟨c, S, hcontext, hpending, hconfig⟩ := placeExecute_spec s (tableBytes nbits w)
  rw [← hconfig] at hcfg hd
  exact ⟨c, S, hcontext, step_execute_ok hcfg hpending hd⟩

/-- Settles O6, by evaluation of decode on the written words. -/
theorem specWordsDecode : Obligations.SpecWordsDecode :=
  ⟨rfl, rfl, rfl, rfl, rfl⟩

/-- Settles O16: the step takes the request and decode answers the instruction it runs. -/
theorem stepRunsTheDecodedInstruction : Obligations.StepRunsTheDecodedInstruction :=
  fun _ _ _ _ _ hcfg hpending hd => step_execute_ok hcfg hpending hd

end

section
/-! PROOF. The capacity of spec/40_operand_stack.md R92 in the invariant that every step keeps (R33, R104,
R120 to R124). -/

namespace Sys2Proof.Machine

/-! ### The capacity -/

/-- A stack that a finite capacity, where there is one, holds. -/
def withinCapacity (cap : Option Nat) (S : Stack) : Prop := ∀ N, cap = some N → S.length ≤ N

theorem withinCapacity_nil (cap : Option Nat) : withinCapacity cap [] :=
  fun _ _ => Nat.zero_le _

theorem withinCapacity_of_length_le {cap : Option Nat} {S T : Stack} (h : withinCapacity cap S)
    (hlen : T.length ≤ S.length) : withinCapacity cap T :=
  fun N hN => hlen.trans (h N hN)

/-- A stack fits where the bytes appended to it leave it within the capacity. -/
theorem fits_iff {cap : Option Nat} {S : Stack} {n : Nat} :
    fits cap S n = true ↔ ∀ N, cap = some N → S.length + n ≤ N := by
  cases cap with
  | none => simp [fits]
  | some N => simp [fits]

theorem withinCapacity_append_of_fits {cap : Option Nat} {S x : Stack} (h : fits cap S x.length = true) :
    withinCapacity cap (S ++ x) := by
  intro N hN
  rw [List.length_append]
  exact fits_iff.mp h N hN

/-- Without a bound every push fits, so one that does not fit met a bound. -/
theorem ne_none_of_not_fits {cap : Option Nat} {S : Stack} {n : Nat} (h : fits cap S n = false) : cap ≠ none := by
  rintro rfl
  cases h

/-! ### Every request ends as the invariant allows -/

/-- An end of a request that keeps the invariant: its stack is within the capacity and its reply is as the spec lets one
be, and only a finite capacity has the fault. -/
def Result.keepsInv (cap : Option Nat) : Result → Prop
  | .done T v => withinCapacity cap T ∧ replyOk (.value v)
  | .error e => errorOk e
  | .capacityFault => cap ≠ none

theorem pushOp_keepsInv (cap : Option Nat) (w : Width) (v : Nat) {a : Value} (S : Stack) (ha : replyOk (.value a)) :
    (pushOp cap w v a S).keepsInv cap := by
  rcases pushOp_cases cap w v a S with ⟨hfits, e⟩ | ⟨hfits, e⟩
  · rw [e]
    exact ⟨withinCapacity_append_of_fits (by rwa [bytesBe_length]), ha⟩
  · rw [e]
    exact ne_none_of_not_fits hfits

theorem popOp_keepsInv {cap : Option Nat} (w : Width) {a : Nat → Value} {S : Stack} (hS : withinCapacity cap S)
    (ha : ∀ n, replyOk (.value (a n))) : (popOp w a S).keepsInv cap := by
  rcases popOp_cases w a S with ⟨hlt, e⟩ | ⟨T, t, rfl, -, e⟩
  · rw [e]
    exact ⟨⟨w, rfl⟩, hlt⟩
  · rw [e]
    exact ⟨withinCapacity_of_length_le hS (by simp), ha _⟩

/-- The operands of an overflow fit the width that their sum passes (R124), and the Delta is the one of R104. -/
theorem dispatchOp_keepsInv (cap : Option Nat) (op : AluOp) {w : Width} {a b : Nat} (S : Stack) (ha : a ≤ w.maxValue)
    (hb : b ≤ w.maxValue) : (dispatchOp cap op w (minLen w) a b S).keepsInv cap := by
  rcases dispatchOp_cases cap op w (minLen w) a b S with ⟨hlt, e⟩ | ⟨-, hfits, e⟩ | ⟨-, hfits, e⟩
  · rw [e]
    exact ⟨w, ha, hb, hlt⟩
  · rw [e]
    exact ⟨withinCapacity_append_of_fits (by rwa [bytesBe_length]), w, rfl⟩
  · rw [e]
    exact ne_none_of_not_fits hfits

/-- A decoded instruction is one add of its width and its two addends. -/
theorem executeInstr_eq_dispatchOp (cfg : Config) (i : Instr) (S : Stack) :
    executeInstr cfg i S = dispatchOp cfg.stackCapacity .add i.width (minLen i.width) i.addend1 i.addend2 S := by
  cases i <;> rfl

/-- The three errors of decode have the payloads of R122 and R123. -/
theorem errorOk_of_decode {cfg : Config} {bytes : List Byte} {e : Error} (h : decode cfg bytes = .error e) :
    errorOk e := by
  rcases decode_error h with ⟨hlt, rfl⟩ | ⟨-, -, rfl⟩ | ⟨h2, w, -, -, hlt, rfl⟩
  · exact ⟨rfl, hlt⟩
  · trivial
  · exact ⟨minLen_cases w, h2, hlt⟩

theorem execute_keepsInv (cfg : Config) (bytes : List Byte) (S : Stack) :
    (execute cfg bytes S).keepsInv cfg.stackCapacity := by
  unfold execute
  split
  next e h => exact errorOk_of_decode h
  next i h =>
    rw [executeInstr_eq_dispatchOp]
    exact dispatchOp_keepsInv _ _ _ ((Width.le_maxValue_iff _ _).mpr i.addend1_lt)
      ((Width.le_maxValue_iff _ _).mpr i.addend2_lt)

theorem requestOp_keepsInv (cfg : Config) (r : Request) {S : Stack} (hS : withinCapacity cfg.stackCapacity S) :
    (requestOp cfg r S).keepsInv cfg.stackCapacity := by
  cases r with
  | new => exact ⟨withinCapacity_nil _, trivial⟩
  | len => exact ⟨hS, trivial⟩
  | push8 b => exact pushOp_keepsInv _ _ _ _ trivial
  | push16 v => exact pushOp_keepsInv _ _ _ _ trivial
  | push32 v => exact pushOp_keepsInv _ _ _ _ trivial
  | pop8 => exact popOp_keepsInv .w8 (a := fun v => .popped8 (BitVec.ofNat 8 v)) hS fun _ => trivial
  | pop16 => exact popOp_keepsInv .w16 (a := fun v => .popped16 (BitVec.ofNat 16 v)) hS fun _ => trivial
  | pop32 => exact popOp_keepsInv .w32 (a := fun v => .popped32 (BitVec.ofNat 32 v)) hS fun _ => trivial
  | execute bytes => exact execute_keepsInv cfg bytes S

/-! ### How many contexts exist -/

theorem liveCount_eq_countP (cs : List Context) : liveCount cs = cs.countP Context.isLive :=
  List.countP_eq_length_filter.symm

/-- Writing the place of a context that exists makes no more contexts exist. -/
theorem liveCount_set_le {cs : List Context} {c : Nat} {S : Stack} (h : cs[c]? = some (.live S)) (x : Context) :
    liveCount (cs.set c x) ≤ liveCount cs := by
  obtain ⟨hlt, hS⟩ := List.getElem?_eq_some_iff.mp h
  have hpos : 0 < cs.countP Context.isLive :=
    List.countP_pos_iff.mpr ⟨.live S, List.mem_of_getElem? h, rfl⟩
  have hlive : Context.isLive cs[c] = true := by rw [hS]; rfl
  rw [liveCount_eq_countP, liveCount_eq_countP, List.countP_set hlt, if_pos hlive]
  split <;> omega

theorem liveCount_begin (cs : List Context) : liveCount (cs ++ [.live []]) = liveCount cs + 1 := by
  rw [liveCount_eq_countP, List.countP_append, ← liveCount_eq_countP]
  rfl

theorem liveCount_map_afterReset (cs : List Context) : liveCount (cs.map Context.afterReset) = liveCount cs := by
  have hlive : Context.isLive ∘ Context.afterReset = Context.isLive := by
    funext x
    cases x <;> rfl
  rw [liveCount_eq_countP, List.countP_map, hlive, liveCount_eq_countP]

/-- Where there is room, one more context is still within `N_CONTEXTS`. -/
theorem liveCount_lt_of_room {cfg : Config} {cs : List Context} (h : roomForContext cfg cs = true) {N : Nat}
    (hN : cfg.nContexts = some N) : liveCount cs < N := by
  simpa [roomForContext, hN] using h

/-! ### The invariant under each operation on the state -/

/-- The stack of an existing context is within the capacity. -/
theorem State.Inv.stack_withinCapacity {s : State} (h : s.Inv) {c : Nat} {S : Stack}
    (hS : s.contexts[c]? = some (.live S)) : withinCapacity s.config.stackCapacity S :=
  fun N hN => h.capacity N hN S (List.mem_of_getElem? hS)

/-- The queue and the active context are free in the invariant. -/
theorem State.Inv.withQueue {s : State} (h : s.Inv) (rest : List HostMove) (c : Nat) :
    ({ s with pending := rest, active := c } : State).Inv :=
  ⟨h.config, h.capacity, h.contexts, h.faultMark, h.replies⟩

/-- One more reply as the spec lets one be keeps the invariant. -/
theorem State.Inv.answer {s : State} (h : s.Inv) {r : Reply} (hr : replyOk r) : (s.answer r).Inv where
  config := h.config
  capacity := h.capacity
  contexts := h.contexts
  faultMark := h.faultMark
  replies c r' hmem := by
    rcases List.mem_cons.mp hmem with e | hold
    · cases e
      exact hr
    · exact h.replies c r' hold

/-- Contexts whose stacks the capacity holds, no more of them than before, keep the invariant. -/
theorem State.Inv.withContexts {s : State} (h : s.Inv) {cs : List Context}
    (hstacks : ∀ T, Context.live T ∈ cs → Context.live T ∈ s.contexts ∨ withinCapacity s.config.stackCapacity T)
    (hcount : ∀ N, s.config.nContexts = some N → liveCount cs ≤ N) : ({ s with contexts := cs } : State).Inv where
  config := h.config
  capacity N hN T hT := by
    rcases hstacks T hT with hold | hnew
    · exact h.capacity N hN T hold
    · exact hnew N hN
  contexts := hcount
  faultMark := h.faultMark
  replies := h.replies

/-- Writing the place of an existing context, with a stack that the capacity holds or with its end. -/
theorem State.Inv.setContext {s : State} (h : s.Inv) {c : Nat} {S : Stack} (hS : s.contexts[c]? = some (.live S))
    {x : Context} (hx : ∀ T, x = .live T → withinCapacity s.config.stackCapacity T) :
    ({ s with contexts := s.contexts.set c x } : State).Inv := by
  refine h.withContexts (fun T hT => ?_) fun N hN => (liveCount_set_le hS x).trans (h.contexts N hN)
  rcases List.mem_or_eq_of_mem_set hT with hold | e
  · exact .inl hold
  · exact .inr (hx T e.symm)

/-- A context that begins where there is room. -/
theorem State.Inv.beginContext {s : State} (h : s.Inv) (hroom : roomForContext s.config s.contexts = true) :
    s.beginContext.Inv := by
  refine h.withContexts (fun T hT => ?_) fun N hN => ?_
  · rcases List.mem_append.mp hT with hold | hnew
    · exact .inl hold
    · cases List.mem_singleton.mp hnew
      exact .inr (withinCapacity_nil _)
  · rw [liveCount_begin]
    exact liveCount_lt_of_room hroom hN

/-- The end of a request in an existing context. -/
theorem State.Inv.settle {s : State} (h : s.Inv) {S : Stack} (hS : s.contexts[s.active]? = some (.live S))
    {x : Result} (hx : x.keepsInv s.config.stackCapacity) : (s.settle x).Inv := by
  cases x with
  | done T v =>
    obtain ⟨hT, hv⟩ := hx
    exact (h.setContext hS fun _ e => Context.live.inj e ▸ hT).answer hv
  | error e => exact h.answer hx
  | capacityFault => exact ⟨h.config, h.capacity, h.contexts, fun hnone => absurd hnone hx, h.replies⟩

/-- A reset. -/
theorem State.Inv.resetBlock {s : State} (h : s.Inv) : (resetBlock s).Inv := by
  have hcleared : ({ s with capacityFault := false, active := 0 } : State).Inv :=
    ⟨h.config, h.capacity, h.contexts, fun _ => rfl, h.replies⟩
  refine hcleared.withContexts (fun T hT => ?_) fun N hN => ?_
  · obtain ⟨x, -, hx⟩ := List.mem_map.mp hT
    cases x with
    | live S =>
      cases hx
      exact .inr (withinCapacity_nil _)
    | ended => cases hx
  · rw [liveCount_map_afterReset]
    exact h.contexts N hN

end Sys2Proof.Machine

open Sys2Proof Sys2Proof.Machine

/-- Settles O3: of the five things a step can do, a request ends as `requestOp_keepsInv` says, and the others write an
empty stack, an ended context or nothing. -/
theorem stepKeepsInvariant : Obligations.StepKeepsInvariant := by
  intro s t h ht
  obtain ⟨-, ⟨-, rfl⟩ | ⟨c, r, rest, S, -, hS, rfl⟩ | ⟨rest, -, hroom, rfl⟩ | ⟨c, rest, S, -, hS, rfl⟩ |
    ⟨rest, -, rfl⟩⟩ := step_next ht
  · exact h
  · exact (h.withQueue rest c).settle hS (requestOp_keepsInv s.config r (h.stack_withinCapacity hS))
  · exact ((h.withQueue rest s.contexts.length).beginContext hroom).answer trivial
  · exact (h.withQueue rest s.active).setContext hS fun _ e => nomatch e
  · exact (h.withQueue rest s.active).resetBlock

end

section
/-! PROOF. The requests of the stack port in spec/40_operand_stack.md: each one alone (R80 to R87), a push past a finite
capacity (R92), and pops after pushes (R88 to R91). -/

namespace Sys2Proof.Machine

/-! ### The state after a request, by how its stack function ends -/

section
variable {s : State} {c : Nat} {S T : Stack} {r : Request} {rest : List HostMove}

theorem step_of_done {v : Value} (h : s.Serves c S r rest) (hr : requestOp s.config r S = .done T v) :
    step s = .next (s.afterValue c rest T v) := by
  rw [step_request h, hr]
  rfl

theorem step_of_error {e : Error} (h : s.Serves c S r rest) (hr : requestOp s.config r S = .error e) :
    step s = .next (s.afterError c rest e) := by
  rw [step_request h, hr]
  rfl

theorem step_of_capacityFault (h : s.Serves c S r rest) (hr : requestOp s.config r S = .capacityFault) :
    step s = .next (s.afterCapacityFault c rest) := by
  rw [step_request h, hr]
  rfl

/-- Writing back the stack a context has changes no context. -/
theorem set_live_self {cs : List Context} (h : cs[c]? = some (.live S)) : cs.set c (.live S) = cs := by
  obtain ⟨hlt, hS⟩ := List.getElem?_eq_some_iff.mp h
  rw [← hS, List.set_getElem_self]

/-- After a request that succeeded, the next request of the same context finds the stack the first one left. -/
theorem State.Serves.next_same {q : Request} {v : Value} (h : s.Serves c S r (.request c q :: rest)) :
    (s.afterValue c (.request c q :: rest) T v).Serves c T q rest where
  config := h.config
  context := by
    obtain ⟨hlt, -⟩ := List.getElem?_eq_some_iff.mp h.context
    exact List.getElem?_set_self hlt
  pending := rfl

/-- A run goes on after a request that succeeded. -/
theorem core_run_of_done {k : Nat} {v : Value} (h : s.Serves c S r rest)
    (hr : requestOp s.config r S = .done T v) : core.run (k + 1) s = core.run k (s.afterValue c rest T v) :=
  core_run_succ (step_of_done h hr)

/-- Two requests of one context, the second of which leaves the stack the first one found: only the replies to both
are new. -/
theorem core_run_two_restoring {q : Request} {u v : Value} (h : s.Serves c S r (.request c q :: rest))
    (hr : requestOp s.config r S = .done T u) (hq : requestOp s.config q T = .done S v) :
    core.run 2 s = .next { s with
      pending := rest, active := c
      replies := (c, .value v) :: (c, .value u) :: s.replies } := by
  rw [core_run_of_done h hr, core_run_of_done h.next_same hq]
  simp only [Host.Core.run, State.afterValue, List.set_set, set_live_self h.context]

/-- Three requests of one context, the last of which leaves the stack the first one found. -/
theorem core_run_three_restoring {q p : Request} {U : Stack} {u v w : Value}
    (h : s.Serves c S r (.request c q :: .request c p :: rest)) (hr : requestOp s.config r S = .done T u)
    (hq : requestOp s.config q T = .done U v) (hp : requestOp s.config p U = .done S w) :
    core.run 3 s = .next { s with
      pending := rest, active := c
      replies := (c, .value w) :: (c, .value v) :: (c, .value u) :: s.replies } := by
  rw [core_run_of_done h hr, core_run_of_done h.next_same hq, core_run_of_done h.next_same.next_same hp]
  simp only [Host.Core.run, State.afterValue, List.set_set, set_live_self h.context]

end

/-! ### Pushes -/

theorem pushOp_of_room {cap : Option Nat} {w : Width} (v : Nat) (a : Value) {S : Stack}
    (hroom : ∀ N, cap = some N → S.length + w.bytes ≤ N) :
    pushOp cap w v a S = .done (S ++ bytesBe w.bytes v) a :=
  if_pos (fits_iff.mpr hroom)

theorem pushOp_past_capacity {cap : Option Nat} {w : Width} (v : Nat) (a : Value) {S : Stack} {N : Nat}
    (hN : cap = some N) (hpast : N < S.length + w.bytes) : pushOp cap w v a S = .capacityFault :=
  if_neg fun hfits => absurd (fits_iff.mp hfits N hN) (Nat.not_le.mpr hpast)

/-- Without a bound there is room for any number of bytes. -/
theorem room_of_unbounded {cap : Option Nat} (h : cap = none) (n : Nat) : ∀ N, cap = some N → n ≤ N := by
  subst h
  exact fun _ hN => nomatch hN

theorem bytesBe_toNat_8 (b : BitVec 8) : bytesBe 1 b.toNat = [b] := by
  rw [bytesBe_succ_toNat, bytesBe_zero, BitVec.extractLsb'_eq_self]

theorem bytesBe_toNat_16 (v : BitVec 16) : bytesBe 2 v.toNat = [v.extractLsb' 8 8, v.extractLsb' 0 8] := by
  simp only [bytesBe_succ_toNat, bytesBe_zero, Nat.mul_one, Nat.mul_zero]

theorem bytesBe_toNat_32 (v : BitVec 32) :
    bytesBe 4 v.toNat = [v.extractLsb' 24 8, v.extractLsb' 16 8, v.extractLsb' 8 8, v.extractLsb' 0 8] := by
  simp only [bytesBe_succ_toNat, bytesBe_zero, Nat.mul_one, Nat.mul_zero, Nat.reduceMul]

/-! ### Pops -/

theorem popOp_underflow {w : Width} (a : Nat → Value) {S : Stack} (h : S.length < w.bytes) :
    popOp w a S = .error (.stackUnderflow w.bytes S.length) :=
  if_pos h

/-- A pop reads the bytes of its width at the top. -/
theorem popOp_append {w : Width} (a : Nat → Value) (T : Stack) {t : List Byte} (ht : t.length = w.bytes) :
    popOp w a (T ++ t) = .done T (a (be t)) := by
  simp [popOp, ht]

/-- The bytes of a value split into those of its high and of its low part. -/
theorem bytesBe_add (m n v : Nat) : bytesBe (m + n) v = bytesBe m (v / 256 ^ n) ++ bytesBe n v := by
  induction m with
  | zero => simp
  | succ m ih =>
    rw [Nat.add_right_comm, bytesBe, ih, bytesBe, List.cons_append, Nat.div_div_eq_div_mul, ← pow_add,
      Nat.add_comm n m]

/-- The low `n` bytes of a value are all that a word of `n` bytes holds of it. -/
theorem ofNat_be_bytesBe {m n : Nat} (hm : m = 8 * n) (v : Nat) :
    BitVec.ofNat m (be (bytesBe n v)) = BitVec.ofNat m v := by
  apply BitVec.eq_of_toNat_eq
  rw [be_bytesBe, BitVec.toNat_ofNat, BitVec.toNat_ofNat, hm, pow_mul]
  exact Nat.mod_mod _ _

/-- The first byte of a sequence lies above the others. -/
theorem ofNat_be_cons (m : Nat) (b : Byte) (t : List Byte) :
    BitVec.ofNat m (be (b :: t)) = b.zeroExtend m <<< (8 * t.length) ||| BitVec.ofNat m (be t) := by
  have hlt : be t < 2 ^ (8 * t.length) := by
    rw [pow_mul]
    exact be_lt t
  have hbe : be (b :: t) = b.toNat <<< (8 * t.length) ||| be t := by
    rw [← Nat.shiftLeft_add_eq_or_of_lt hlt, Nat.shiftLeft_eq, pow_mul]
    rfl
  rw [hbe, BitVec.ofNat_or]
  congr 1
  apply BitVec.eq_of_toNat_eq
  simp [Nat.shiftLeft_eq]

/-- `pop8` reads the top byte, big-endian. -/
theorem requestOp_pop8_append (cfg : Config) (T : Stack) {t : List Byte} (ht : t.length = 1) :
    requestOp cfg .pop8 (T ++ t) = .done T (.popped8 (BitVec.ofNat 8 (be t))) := by
  rw [requestOp, popOp_append _ T (w := .w8) ht]

/-- `pop16` reads the two top bytes, big-endian. -/
theorem requestOp_pop16_append (cfg : Config) (T : Stack) {t : List Byte} (ht : t.length = 2) :
    requestOp cfg .pop16 (T ++ t) = .done T (.popped16 (BitVec.ofNat 16 (be t))) := by
  rw [requestOp, popOp_append _ T (w := .w16) ht]

/-- `pop32` reads the four top bytes, big-endian. -/
theorem requestOp_pop32_append (cfg : Config) (T : Stack) {t : List Byte} (ht : t.length = 4) :
    requestOp cfg .pop32 (T ++ t) = .done T (.popped32 (BitVec.ofNat 32 (be t))) := by
  rw [requestOp, popOp_append _ T (w := .w32) ht]

/-- `pop8` after bytes pushed big-endian reads the lowest byte of their value. -/
theorem requestOp_pop8_append_bytesBe (cfg : Config) (T : Stack) (v : Nat) :
    requestOp cfg .pop8 (T ++ bytesBe 1 v) = .done T (.popped8 (BitVec.ofNat 8 v)) := by
  rw [requestOp_pop8_append cfg T (bytesBe_length 1 v), ofNat_be_bytesBe (m := 8) rfl]

/-- `pop16` reads the lowest two bytes. -/
theorem requestOp_pop16_append_bytesBe (cfg : Config) (T : Stack) (v : Nat) :
    requestOp cfg .pop16 (T ++ bytesBe 2 v) = .done T (.popped16 (BitVec.ofNat 16 v)) := by
  rw [requestOp_pop16_append cfg T (bytesBe_length 2 v), ofNat_be_bytesBe (m := 16) rfl]

/-- `pop32` reads the lowest four bytes. -/
theorem requestOp_pop32_append_bytesBe (cfg : Config) (T : Stack) (v : Nat) :
    requestOp cfg .pop32 (T ++ bytesBe 4 v) = .done T (.popped32 (BitVec.ofNat 32 v)) := by
  rw [requestOp_pop32_append cfg T (bytesBe_length 4 v), ofNat_be_bytesBe (m := 32) rfl]

/-- A push, its bytes split into those that a shorter pop reads first, at the top, and those below them. -/
theorem pushOp_split {cap : Option Nat} {w : Width} {m n : Nat} (hw : w.bytes = m + n) (v : Nat) (a : Value)
    {S : Stack} (hroom : ∀ N, cap = some N → S.length + w.bytes ≤ N) :
    pushOp cap w v a S = .done ((S ++ bytesBe m (v / 256 ^ n)) ++ bytesBe n v) a := by
  rw [pushOp_of_room v a hroom, hw, bytesBe_add, List.append_assoc]

/-- The field of a word at a bit position is the word divided by that power of two. -/
theorem extractLsb'_eq_ofNat_div {m : Nat} (v : BitVec m) (start len : Nat) :
    v.extractLsb' start len = BitVec.ofNat len (v.toNat / 2 ^ start) := by
  rw [← Nat.shiftRight_eq_div_pow]
  rfl

end Sys2Proof.Machine

open Sys2Proof Sys2Proof.Machine

/-- Settles O37: the check of the length fails, or the two bytes are read with the top one as the low byte. -/
theorem pop16TakesTheTopTwoBytes : Obligations.Pop16TakesTheTopTwoBytes := by
  intro s c S rest h
  refine ⟨fun hlen => step_of_error h ?_, ?_⟩
  · rw [requestOp, popOp_underflow (w := .w16) _ hlen, Width.bytes]
  · rintro T second first rfl
    have hpop := step_of_done h (requestOp_pop16_append s.config T rfl)
    simpa [ofNat_be_cons] using hpop

/-- Settles O38, as O37: each byte lies above those that stood on top of it. -/
theorem pop32TakesTheTopFourBytes : Obligations.Pop32TakesTheTopFourBytes := by
  intro s c S rest h
  refine ⟨fun hlen => step_of_error h ?_, ?_⟩
  · rw [requestOp, popOp_underflow (w := .w32) _ hlen, Width.bytes]
  · rintro T p4 p3 p2 p1 rfl
    have hpop := step_of_done h (requestOp_pop32_append s.config T rfl)
    simpa [ofNat_be_cons, BitVec.or_assoc] using hpop

/-- Settles O42: a push appends the bytes of `v`, from which the pop of its width reads `v` again. -/
theorem popAfterPushReturnsTheValue : Obligations.PopAfterPushReturnsTheValue := by
  intro s c S rest
  refine ⟨fun v h hroom => ?_, fun v h hroom => ?_, fun v h hroom => ?_⟩
  · simpa using core_run_two_restoring h (pushOp_of_room (w := .w8) _ _ hroom)
      (requestOp_pop8_append_bytesBe ..)
  · simpa using core_run_two_restoring h (pushOp_of_room (w := .w16) _ _ hroom)
      (requestOp_pop16_append_bytesBe ..)
  · simpa using core_run_two_restoring h (pushOp_of_room (w := .w32) _ _ hroom)
      (requestOp_pop32_append_bytesBe ..)

/-- Settles O43: the bytes of the pushed value are those of its high half below those of its low half, and two bytes
pushed one by one are the two bytes of a 16-bit value. -/
theorem mixedWidthPopsSeeRawBytes : Obligations.MixedWidthPopsSeeRawBytes := by
  intro s c S rest hcap
  refine ⟨fun v h => ?_, fun v h => ?_, fun a b h => ?_⟩
  · rw [extractLsb'_eq_ofNat_div, extractLsb'_eq_ofNat_div, pow_zero, Nat.div_one]
    exact core_run_three_restoring h (pushOp_split (w := .w32) (n := 2) rfl _ _ (room_of_unbounded hcap _))
      (requestOp_pop16_append_bytesBe ..) (requestOp_pop16_append_bytesBe ..)
  · rw [extractLsb'_eq_ofNat_div, extractLsb'_eq_ofNat_div, pow_zero, Nat.div_one]
    exact core_run_three_restoring h (pushOp_split (w := .w16) (n := 1) rfl _ _ (room_of_unbounded hcap _))
      (requestOp_pop8_append_bytesBe ..) (requestOp_pop8_append_bytesBe ..)
  · have hpop : requestOp s.config .pop16 ((S ++ bytesBe 1 a.toNat) ++ bytesBe 1 b.toNat) =
        .done S (.popped16 (a ++ b)) := by
      rw [bytesBe_toNat_8, bytesBe_toNat_8, List.append_assoc, ← opcodeField_cons_cons a b []]
      exact requestOp_pop16_append s.config S rfl
    exact core_run_three_restoring h (pushOp_of_room (w := .w8) _ _ (room_of_unbounded hcap _))
      (pushOp_of_room (w := .w8) _ _ (room_of_unbounded hcap _)) hpop

/-- Settles O33: there is room, and the one byte laid out is `b`. -/
theorem push8AppendsTheByte : Obligations.Push8AppendsTheByte := by
  intro s c S rest b h hroom
  rw [← bytesBe_toNat_8 b]
  exact step_of_done h (pushOp_of_room (w := .w8) _ _ hroom)

/-- Settles O34: there is room, and the bytes laid out are those of `v`, the high one first. -/
theorem push16AppendsTwoBytes : Obligations.Push16AppendsTwoBytes := by
  intro s c S rest v h hroom
  rw [← bytesBe_toNat_16 v]
  exact step_of_done h (pushOp_of_room (w := .w16) _ _ hroom)

/-- Settles O35, as O34 with four bytes. -/
theorem push32AppendsFourBytes : Obligations.Push32AppendsFourBytes := by
  intro s c S rest v h hroom
  rw [← bytesBe_toNat_32 v]
  exact step_of_done h (pushOp_of_room (w := .w32) _ _ hroom)

/-- Settles O36: the top byte is the value of the one-byte sequence that a pop of width 1 reads. -/
theorem pop8TakesTheTopByte : Obligations.Pop8TakesTheTopByte := by
  intro s c S rest h
  constructor
  · rintro rfl
    exact step_of_error h rfl
  · rintro T b rfl
    have hpop := requestOp_pop8_append_bytesBe s.config T b.toNat
    rw [BitVec.ofNat_toNat, BitVec.setWidth_eq, bytesBe_toNat_8] at hpop
    exact step_of_done h hpop

/-- Settles O39: for a context that exists the stack function of `new` gives the empty stack. -/
theorem newLeavesAnEmptyStack : Obligations.NewLeavesAnEmptyStack :=
  fun _ _ _ _ h => step_of_done h rfl

/-- Settles O40: the stack `len` leaves is the one it found. -/
theorem lenCountsBytes : Obligations.LenCountsBytes := by
  intro s c S rest h
  have hlen := step_of_done (v := .length S.length) h rfl
  rwa [State.afterValue, set_live_self h.context] at hlen

/-- Settles O41: no push of `w` bytes fits past the capacity. -/
theorem pushPastCapacitySetsTheMark : Obligations.PushPastCapacitySetsTheMark :=
  fun _ _ _ _ _ hN =>
    ⟨fun _ h hpast => step_of_capacityFault h (pushOp_past_capacity (w := .w8) _ _ hN hpast),
     fun _ h hpast => step_of_capacityFault h (pushOp_past_capacity (w := .w16) _ _ hN hpast),
     fun _ h hpast => step_of_capacityFault h (pushOp_past_capacity (w := .w32) _ _ hN hpast)⟩

end

section
/-! PROOF. The statements of spec/41_add.md: the overflow condition (R102), the push of the exact sum (R104), the whole
calls of the three instructions (R105 to R107), commutation (R108), and `execute` as a function of the bytes and the
stack (R109 to R111). -/

namespace Sys2Proof.Machine

/-! ### The overflow condition -/

theorem maxValue_lt_iff {w : Width} {n : Nat} : w.maxValue < n ↔ 256 ^ w.bytes ≤ n := by
  rw [← Nat.not_le, Width.le_maxValue_iff, Nat.not_lt]

theorem overflows_iff {w : Width} {n : Nat} : overflows w n = true ↔ 256 ^ w.bytes ≤ n := by
  rw [overflows, decide_eq_true_iff, maxValue_lt_iff]

theorem alu_of_fits {w : Width} {a b : Nat} (h : a + b ≤ w.maxValue) : alu .add w a b = .ok (a + b) :=
  if_neg (by simpa [overflows] using h)

theorem alu_of_overflow {w : Width} {a b : Nat} (h : w.maxValue < a + b) :
    alu .add w a b = .error (.arithmeticOverflow a b) :=
  if_pos (by simpa [overflows] using h)

/-! ### The three ends of a decoded instruction -/

section
variable {cfg : Config} {i : Instr} {S : Stack}

/-- An add whose sum fits is the push of that sum. -/
theorem executeInstr_of_fits (h : i.addend1 + i.addend2 ≤ i.width.maxValue) :
    executeInstr cfg i S = pushOp cfg.stackCapacity i.width (i.addend1 + i.addend2)
      (.delta ⟨minLen i.width, i.width.bytes⟩) S := by
  rw [executeInstr_eq_dispatchOp, dispatchOp, alu_of_fits h]

/-- The overflow is reported before the capacity is looked at (R110). -/
theorem executeInstr_of_overflow (h : i.width.maxValue < i.addend1 + i.addend2) :
    executeInstr cfg i S = .error (.arithmeticOverflow i.addend1 i.addend2) := by
  rw [executeInstr_eq_dispatchOp, dispatchOp, alu_of_overflow h]

theorem executeInstr_of_room (h : i.addend1 + i.addend2 ≤ i.width.maxValue)
    (hroom : ∀ N, cfg.stackCapacity = some N → S.length + i.width.bytes ≤ N) :
    executeInstr cfg i S = .done (S ++ bytesBe i.width.bytes (i.addend1 + i.addend2))
      (.delta ⟨minLen i.width, i.width.bytes⟩) := by
  rw [executeInstr_of_fits h, pushOp_of_room _ _ hroom]

theorem executeInstr_past_capacity {N : Nat} (h : i.addend1 + i.addend2 ≤ i.width.maxValue)
    (hN : cfg.stackCapacity = some N) (hpast : N < S.length + i.width.bytes) :
    executeInstr cfg i S = .capacityFault := by
  rw [executeInstr_of_fits h, pushOp_past_capacity _ _ hN hpast]

end

/-- Instructions of one width with one sum that fits do the same. -/
theorem executeInstr_congr {cfg : Config} {i j : Instr} (hw : i.width = j.width)
    (hsum : i.addend1 + i.addend2 = j.addend1 + j.addend2) (h : i.addend1 + i.addend2 ≤ i.width.maxValue) :
    executeInstr cfg i = executeInstr cfg j := by
  funext S
  rw [executeInstr_of_fits h, executeInstr_of_fits (by rwa [← hw, ← hsum]), hw, hsum]

/-! ### The three ends of `exec` in an existing context -/

section
variable {i : Instr} {s : State} {S : Stack}

theorem exec_live (hS : s.contexts[s.active]? = some (.live S)) :
    exec i s = .next (s.settle (executeInstr s.config i S)) := by
  rw [exec_eq_onStack, onStack_live _ hS]

theorem exec_of_room (hS : s.contexts[s.active]? = some (.live S))
    (h : i.addend1 + i.addend2 ≤ i.width.maxValue)
    (hroom : ∀ N, s.config.stackCapacity = some N → S.length + i.width.bytes ≤ N) :
    exec i s = .next ((s.putStack (S ++ bytesBe i.width.bytes (i.addend1 + i.addend2))).answer
      (.value (.delta ⟨minLen i.width, i.width.bytes⟩))) := by
  rw [exec_live hS, executeInstr_of_room h hroom, State.settle]

theorem exec_of_overflow (hS : s.contexts[s.active]? = some (.live S))
    (h : i.width.maxValue < i.addend1 + i.addend2) :
    exec i s = .next (s.raise (.arithmeticOverflow i.addend1 i.addend2)) := by
  rw [exec_live hS, executeInstr_of_overflow h, State.settle]

theorem exec_past_capacity {N : Nat} (hS : s.contexts[s.active]? = some (.live S))
    (h : i.addend1 + i.addend2 ≤ i.width.maxValue) (hN : s.config.stackCapacity = some N)
    (hpast : N < S.length + i.width.bytes) : exec i s = .next s.markCapacity := by
  rw [exec_live hS, executeInstr_past_capacity h hN hpast, State.settle]

/-- `exec` answers a next state only in a context that exists. -/
theorem live_of_exec_next {t : State} (h : exec i s = .next t) : ∃ S, s.contexts[s.active]? = some (.live S) := by
  rw [exec_eq_onStack] at h
  obtain ⟨S, hS, -⟩ := onStack_next h
  exact ⟨S, hS⟩

end

/-! ### The bytes of a sum that fits -/

theorem bytesBe_add_toNat_8 {a b : BitVec 8} (h : a.toNat + b.toNat ≤ 0xFF) :
    bytesBe 1 (a.toNat + b.toNat) = [a + b] := by
  rw [← BitVec.toNat_add_of_lt (Nat.lt_succ_of_le h), bytesBe_toNat_8]

theorem bytesBe_add_toNat_16 {a b : BitVec 16} (h : a.toNat + b.toNat ≤ 0xFFFF) :
    bytesBe 2 (a.toNat + b.toNat) = [(a + b).extractLsb' 8 8, (a + b).extractLsb' 0 8] := by
  rw [← BitVec.toNat_add_of_lt (Nat.lt_succ_of_le h), bytesBe_toNat_16]

theorem bytesBe_add_toNat_32 {a b : BitVec 32} (h : a.toNat + b.toNat ≤ 0xFFFFFFFF) :
    bytesBe 4 (a.toNat + b.toNat) = [(a + b).extractLsb' 24 8, (a + b).extractLsb' 16 8,
      (a + b).extractLsb' 8 8, (a + b).extractLsb' 0 8] := by
  rw [← BitVec.toNat_add_of_lt (Nat.lt_succ_of_le h), bytesBe_toNat_32]

/-! ### A call of `execute` with an instruction's bytes -/

theorem execute_of_decode_ok {cfg : Config} {bytes : List Byte} {i : Instr} (h : decode cfg bytes = .ok i)
    (S : Stack) : execute cfg bytes S = executeInstr cfg i S := by
  rw [execute, h]

theorem execute_of_decode_error {cfg : Config} {bytes : List Byte} {e : Error} (h : decode cfg bytes = .error e)
    (S : Stack) : execute cfg bytes S = .error e := by
  rw [execute, h]

section
variable {s : State} {c : Nat} {S : Stack} {rest : List HostMove} {i : Instr} {t : List Byte}

/-- A call with a present instruction whose sum fits, where there is room. -/
theorem step_encoded_of_room (h : s.Serves c S (.execute (encode s.config i ++ t)) rest)
    (hi : i.width ∈ s.config.widths) (hsum : i.addend1 + i.addend2 ≤ i.width.maxValue)
    (hroom : ∀ N, s.config.stackCapacity = some N → S.length + i.width.bytes ≤ N) :
    step s = .next (s.afterValue c rest (S ++ bytesBe i.width.bytes (i.addend1 + i.addend2))
      (.delta ⟨minLen i.width, i.width.bytes⟩)) := by
  apply step_of_done h
  rw [requestOp, execute_of_decode_ok (decode_encode_append t h.config hi), executeInstr_of_room hsum hroom]

/-- A call with a present instruction that overflows, whatever the capacity. -/
theorem step_encoded_of_overflow (h : s.Serves c S (.execute (encode s.config i ++ t)) rest)
    (hi : i.width ∈ s.config.widths) (hsum : i.width.maxValue < i.addend1 + i.addend2) :
    step s = .next (s.afterError c rest (.arithmeticOverflow i.addend1 i.addend2)) := by
  apply step_of_error h
  rw [requestOp, execute_of_decode_ok (decode_encode_append t h.config hi), executeInstr_of_overflow hsum]

end

/-! ### Operands given by their values or their bytes -/

theorem addends_instrOf {w : Width} {a b : Nat} (ha : a < 256 ^ w.bytes) (hb : b < 256 ^ w.bytes) :
    (instrOf .add w a b).addend1 = a ∧ (instrOf .add w a b).addend2 = b :=
  ⟨addend1_instrOf _ _ _ ha, addend2_instrOf _ _ _ hb⟩

section
variable {w : Width} {A B : List Byte}

theorem addends_instrOf_be (hA : A.length = w.bytes) (hB : B.length = w.bytes) :
    (instrOf .add w (be A) (be B)).addend1 = be A ∧ (instrOf .add w (be A) (be B)).addend2 = be B :=
  addends_instrOf (hA ▸ be_lt A) (hB ▸ be_lt B)

/-- Operand bytes after the identifier of their width are the encoding of the instruction they make. -/
theorem encode_instrOf_be (cfg : Config) (hA : A.length = w.bytes) (hB : B.length = w.bytes) :
    encode cfg (instrOf .add w (be A) (be B)) =
      (descriptorOf cfg w).id.extractLsb' 8 8 :: (descriptorOf cfg w).id.extractLsb' 0 8 :: (A ++ B) := by
  have hbytesA : bytesBe w.bytes (be A) = A := by rw [← hA, bytesBe_be]
  have hbytesB : bytesBe w.bytes (be B) = B := by rw [← hB, bytesBe_be]
  obtain ⟨ha, hb⟩ := addends_instrOf_be hA hB
  rw [encode_eq_layFields, instrOf_width, ha, hb, layFields, hbytesA, hbytesB, opcodeBytes, bytesBe_toNat_16]
  rfl

/-- A request with the identifier of a width and operand bytes hands over an encoded instruction. -/
theorem State.Serves.encoded {s : State} {c : Nat} {S : Stack} {rest : List HostMove} {t : List Byte}
    (h : s.Serves c S (.execute ((descriptorOf s.config w).id.extractLsb' 8 8 ::
      (descriptorOf s.config w).id.extractLsb' 0 8 :: (A ++ B ++ t))) rest)
    (hA : A.length = w.bytes) (hB : B.length = w.bytes) :
    s.Serves c S (.execute (encode s.config (instrOf .add w (be A) (be B)) ++ t)) rest := by
  rw [encode_instrOf_be s.config hA hB]
  exact h

end

/-! ### A call with too few bytes -/

/-- The two bytes of an identifier, put together again. -/
theorem extractLsb'_append_extractLsb' (o : BitVec 16) : o.extractLsb' 8 8 ++ o.extractLsb' 0 8 = o := by
  rw [BitVec.extractLsb'_append_extractLsb'_eq_extractLsb' (start₁ := 0) (start₂ := 8) rfl]
  exact BitVec.extractLsb'_eq_self

/-- A call with the identifier of a present width and fewer bytes than the instruction (R65). -/
theorem step_too_short_for_width {s : State} {c : Nat} {S : Stack} {rest : List HostMove} {w : Width} {o : OpcodeId}
    {short : List Byte} (hw : w ∈ s.config.widths) (ho : o = (descriptorOf s.config w).id)
    (h : s.Serves c S (.execute (o.extractLsb' 8 8 :: o.extractLsb' 0 8 :: short)) rest)
    (hshort : short.length + 2 < minLen w) :
    step s = .next (s.afterError c rest (.instructionTooShort (some o) (minLen w) (short.length + 2))) := by
  subst ho
  obtain ⟨-, hstep⟩ := tooShortForTheInstruction s c S rest _ _ short h _ (descriptorOf_mem hw)
    (extractLsb'_append_extractLsb' _).symm
  simpa [hshort] using hstep

/-! ### `execute` with an unbounded stack -/

/-- No check of decode reports an underflow (R109). -/
theorem ne_stackUnderflow_of_decode {cfg : Config} {bytes : List Byte} {e : Error} (h : decode cfg bytes = .error e)
    (x y : Nat) : e ≠ .stackUnderflow x y := by
  rcases decode_error h with ⟨-, rfl⟩ | ⟨-, -, rfl⟩ | ⟨-, w, -, -, -, rfl⟩ <;> exact nofun

/-- The bytes alone decide how `execute` ends: on every stack it appends the same present width's bytes, or fails with
the same error (R109, R110). -/
theorem execute_of_unbounded {cfg : Config} (bytes : List Byte) (hcap : cfg.stackCapacity = none) :
    (∃ d ∈ opcodeTable cfg, ∃ v ≤ d.operandWidth.maxValue, d.minimumLength ≤ bytes.length ∧
      ∀ S, execute cfg bytes S =
        .done (S ++ bytesBe d.operandWidth.bytes v) (.delta ⟨d.minimumLength, d.operandWidth.bytes⟩)) ∨
    (∃ e, (∀ S, execute cfg bytes S = .error e) ∧ errorOk e ∧ ∀ x y, e ≠ .stackUnderflow x y) := by
  cases hd : decode cfg bytes with
  | error e =>
    exact .inr ⟨e, execute_of_decode_error hd, errorOk_of_decode hd, ne_stackUnderflow_of_decode hd⟩
  | ok i =>
    obtain ⟨-, hw, -, hlen, -⟩ := decode_ok hd
    by_cases hsum : i.addend1 + i.addend2 ≤ i.width.maxValue
    · refine .inl ⟨descriptorOf cfg i.width, descriptorOf_mem hw, i.addend1 + i.addend2, ?_⟩
      simp only [descriptorOf_operandWidth, descriptorOf_minimumLength]
      refine ⟨hsum, hlen, fun S => ?_⟩
      rw [execute_of_decode_ok hd, executeInstr_of_room hsum (room_of_unbounded hcap _)]
    · have hover := Nat.lt_of_not_le hsum
      refine .inr ⟨.arithmeticOverflow i.addend1 i.addend2, fun S => ?_, ?_, nofun⟩
      · rw [execute_of_decode_ok hd, executeInstr_of_overflow hover]
      · exact ⟨i.width, (Width.le_maxValue_iff _ _).mpr i.addend1_lt, (Width.le_maxValue_iff _ _).mpr i.addend2_lt,
          hover⟩

end Sys2Proof.Machine

open Sys2Proof Sys2Proof.Machine

/-- Settles O23: the encoding of ADD8 is `00 00 a b`, and the checks of decode come before its operands. -/
theorem add8Call : Obligations.Add8Call := by
  intro s c S rest a b t short
  obtain ⟨hformat, -, -⟩ := formatsLayFieldsBigEndian
  obtain ⟨hencode, -, -⟩ := hformat s.config a b
  have hbytes : 0x00 :: 0x00 :: a :: b :: t = encode s.config (.add8 a b) ++ t := by rw [hencode]; rfl
  refine ⟨fun h hsum hroom => ?_, fun h hsum => ?_, fun h hshort => ?_, fun h hshort => ?_⟩
  · rw [hbytes] at h
    rw [← bytesBe_add_toNat_8 hsum]
    exact step_encoded_of_room h (configOk_w8_mem h.config) hsum hroom
  · rw [hbytes] at h
    exact step_encoded_of_overflow h (configOk_w8_mem h.config) hsum
  · exact step_too_short_for_width (w := .w8) (configOk_w8_mem h.config) rfl h (Nat.add_lt_add_right hshort 2)
  · exact tooShortForTheOpcode s c S rest short h hshort

/-- Settles O24, as O23 at the identifier of ADD16. -/
theorem add16Call : Obligations.Add16Call := by
  intro s c S rest o a b t short hw ho
  obtain ⟨-, hformat, -⟩ := formatsLayFieldsBigEndian
  obtain ⟨hencode, -, -⟩ := hformat s.config a b
  refine ⟨fun h => ?_, fun h hshort => step_too_short_for_width hw ho h (Nat.add_lt_add_right hshort 2)⟩
  have hserves : s.Serves c S (.execute (encode s.config (.add16 a b) ++ t)) rest := by
    rw [hencode, ← ho]
    exact h
  refine ⟨fun hsum hroom => ?_, fun hsum => step_encoded_of_overflow hserves hw hsum⟩
  rw [← bytesBe_add_toNat_16 hsum]
  exact step_encoded_of_room hserves hw hsum hroom

/-- Settles O25, as O23 at the identifier of ADD32. -/
theorem add32Call : Obligations.Add32Call := by
  intro s c S rest o a b t short hw ho
  obtain ⟨-, -, hformat⟩ := formatsLayFieldsBigEndian
  obtain ⟨hencode, -, -⟩ := hformat s.config a b
  refine ⟨fun h => ?_, fun h hshort => step_too_short_for_width hw ho h (Nat.add_lt_add_right hshort 2)⟩
  have hserves : s.Serves c S (.execute (encode s.config (.add32 a b) ++ t)) rest := by
    rw [hencode, ← ho]
    exact h
  refine ⟨fun hsum hroom => ?_, fun hsum => step_encoded_of_overflow hserves hw hsum⟩
  rw [← bytesBe_add_toNat_32 hsum]
  exact step_encoded_of_room hserves hw hsum hroom

/-- Settles O26: the bytes are the encoding of the entry's instruction with the addends `be A` and `be B`. -/
theorem addCommitsTheExactSum : Obligations.AddCommitsTheExactSum := by
  intro s c S rest A B t d hd
  obtain ⟨w, hw, rfl⟩ := opcodeTable_mem hd
  refine ⟨by cases w <;> simp [descriptorOf, minLen, opcodeBytes, Width.bytes], ?_⟩
  simp only [descriptorOf_operandWidth, descriptorOf_minimumLength]
  intro hA hB h hsum hroom
  have hstep := step_encoded_of_room (h.encoded hA hB)
  obtain ⟨ha, hb⟩ := addends_instrOf_be hA hB
  rw [instrOf_width, ha, hb] at hstep
  exact hstep hw hsum hroom

/-- Settles O27: the encoding as in O26, and the ALU fails before any push. -/
theorem overflowPushesNothing : Obligations.OverflowPushesNothing := by
  intro s c S rest A B t d hd
  obtain ⟨w, hw, rfl⟩ := opcodeTable_mem hd
  rw [descriptorOf_operandWidth]
  intro hA hB h hsum
  have hstep := step_encoded_of_overflow (h.encoded hA hB)
  obtain ⟨ha, hb⟩ := addends_instrOf_be hA hB
  rw [instrOf_width, ha, hb] at hstep
  exact hstep hw hsum

/-- Settles O28: both sides say that the sum reaches `256 ^ w`, which is `2 ^ (8 * w)`. -/
theorem overflowIsTheCarryOut : Obligations.OverflowIsTheCarryOut := by
  intro w a b
  have hpow : 256 ^ w.bytes = 2 ^ (8 * w.bytes) := (pow_mul 2 8 _).symm
  have ha := a.isLt
  have hb := b.isLt
  constructor
  · rw [overflows_iff, hpow, BitVec.carry, decide_eq_true_iff, Nat.mod_eq_of_lt ha, Nat.mod_eq_of_lt hb]
    rfl
  · rw [overflows_iff, hpow, Width.maxValue, hpow]
    omega

/-- Settles O29: a sum that fits does not see the order of its addends, and an overflow reports them in it. -/
theorem addIsCommutativeWithIdentityZero : Obligations.AddIsCommutativeWithIdentityZero := by
  intro w a b s t ha hb hexec
  obtain ⟨ha₁, ha₂⟩ := addends_instrOf ha hb
  obtain ⟨hb₁, hb₂⟩ := addends_instrOf hb ha
  refine ⟨fun hsum => ?_, fun hsum => ?_, fun S hS hcap => ?_⟩
  · rw [← hexec, exec_eq_onStack, exec_eq_onStack, executeInstr_congr (j := instrOf .add w a b)]
    · rw [instrOf_width, instrOf_width]
    · rw [ha₁, ha₂, hb₁, hb₂, Nat.add_comm]
    · rwa [hb₁, hb₂, instrOf_width, Nat.add_comm, Width.le_maxValue_iff]
  · obtain ⟨S, hS⟩ := live_of_exec_next hexec
    have hab := exec_of_overflow (i := instrOf .add w a b) hS
    have hba := exec_of_overflow (i := instrOf .add w b a) hS
    rw [instrOf_width, ha₁, ha₂, maxValue_lt_iff, hexec] at hab
    rw [instrOf_width, hb₁, hb₂, maxValue_lt_iff, Nat.add_comm b] at hba
    exact ⟨Host.Outcome.next.inj (hab hsum), hba hsum⟩
  · have hzero : 0 < 256 ^ w.bytes := by positivity
    obtain ⟨hz₁, hz₂⟩ := addends_instrOf ha hzero
    have hroom := exec_of_room (i := instrOf .add w a 0) hS
    rw [instrOf_width, hz₁, hz₂, Nat.add_zero] at hroom
    exact hroom ((Width.le_maxValue_iff _ _).mpr ha) (room_of_unbounded hcap _)

/-- Settles O30: the step of a request settles what the function of its stack answers. -/
theorem stepServesExecuteAsTheFunction : Obligations.StepServesExecuteAsTheFunction :=
  fun _ _ _ _ _ h => ⟨fun _ _ => step_of_done h, fun _ => step_of_error h, step_of_capacityFault h⟩

/-- Settles O31: the end of `execute` on one stack is its end on every stack. -/
theorem executeNeverReadsTheStack : Obligations.ExecuteNeverReadsTheStack := by
  intro cfg bytes S T hcap
  rcases execute_of_unbounded bytes hcap with ⟨d, -, v, -, -, hdone⟩ | ⟨e, herror, -, hne⟩
  · rw [hdone S, hdone T]
    refine ⟨nofun, ?_⟩
    rintro S' v' ⟨⟩
    exact ⟨_, rfl, rfl⟩
  · rw [herror S, herror T]
    refine ⟨?_, nofun⟩
    rintro e' ⟨⟩
    exact ⟨rfl, hne⟩

/-- Settles O32: one of the two ends of `execute_of_unbounded`, at the stack `S`. -/
theorem executeEndsInResultOrError : Obligations.ExecuteEndsInResultOrError := by
  intro cfg bytes S hcap
  rcases execute_of_unbounded bytes hcap with ⟨d, hd, v, hv, hlen, hdone⟩ | ⟨e, herror, hok, hne⟩
  · exact .inl ⟨d, hd, v, hv, hlen, hdone S⟩
  · exact .inr ⟨e, herror S, hok, hne⟩

/-- Settles O18: there is room, and the one byte laid out is `a + b`. -/
theorem execAdd8PushesTheSum : Obligations.ExecAdd8PushesTheSum := by
  intro a b s S hS hsum hroom
  rw [← bytesBe_add_toNat_8 hsum]
  exact exec_of_room (i := .add8 a b) hS hsum hroom

/-- Settles O19, as O18 with two bytes. -/
theorem execAdd16PushesTheSum : Obligations.ExecAdd16PushesTheSum := by
  intro a b s S hS hsum hroom
  rw [← bytesBe_add_toNat_16 hsum]
  exact exec_of_room (i := .add16 a b) hS hsum hroom

/-- Settles O20, as O18 with four bytes. -/
theorem execAdd32PushesTheSum : Obligations.ExecAdd32PushesTheSum := by
  intro a b s S hS hsum hroom
  rw [← bytesBe_add_toNat_32 hsum]
  exact exec_of_room (i := .add32 a b) hS hsum hroom

/-- Settles O21: the ALU fails, and the error is the one reply. -/
theorem execAddOverflowChangesNothingElse : Obligations.ExecAddOverflowChangesNothingElse :=
  ⟨fun a b _ _ hS hsum => exec_of_overflow (i := .add8 a b) hS hsum,
   fun a b _ _ hS hsum => exec_of_overflow (i := .add16 a b) hS hsum,
   fun a b _ _ hS hsum => exec_of_overflow (i := .add32 a b) hS hsum⟩

/-- Settles O22: no push of the sum fits past the capacity. -/
theorem execAddPastCapacitySetsTheMark : Obligations.ExecAddPastCapacitySetsTheMark :=
  ⟨fun a b _ _ _ hS hsum => exec_past_capacity (i := .add8 a b) hS hsum,
   fun a b _ _ _ hS hsum => exec_past_capacity (i := .add16 a b) hS hsum,
   fun a b _ _ _ hS hsum => exec_past_capacity (i := .add32 a b) hS hsum⟩

end

section
/-! PROOF. The statements of spec/60_exceptions.md: every request ends (R126, R129), a failure changes nothing but the
reply (R125, R127), contexts that have not begun (R134), and the reference driver (R136). -/

namespace Sys2Proof.Machine

/-! ### The end of a request -/

/-- Only a finite capacity gives a request the capacity end. -/
theorem ne_none_of_requestOp_capacityFault {cfg : Config} {r : Request} {S : Stack}
    (h : requestOp cfg r S = .capacityFault) : cfg.stackCapacity ≠ none := by
  intro hnone
  have hS : withinCapacity cfg.stackCapacity S := fun N hN => by simp [hnone] at hN
  have hend := requestOp_keepsInv cfg r hS
  rw [h] at hend
  exact hend hnone

/-- A result that gives its host an error as the one new reply is that error. -/
theorem Result.eq_error_of_replies {x : Result} {c : Nat} {e : Error} {l : List (Nat × Reply)}
    (h : x.replies c ++ l = (c, .error e) :: l) : x = .error e := by
  cases x with
  | done T v => simp [Result.replies] at h
  | error e' => simpa [Result.replies] using h
  | capacityFault => simp [Result.replies] at h

/-! ### A request of a context that has not begun -/

/-- A request over a stack finds none in a context that never began. -/
theorem onStack_of_no_context {s : State} (op : Stack → Result) (h : s.contexts[s.active]? = none) :
    s.onStack op = .refused (.noSuchContext s.active) := by
  simp only [State.onStack, h]

/-- Only `new()` at the next free place has a meaning in a context that never began. -/
theorem serveRequest_of_no_context {s : State} {r : Request} (h : s.contexts[s.active]? = none)
    (hr : r ≠ .new ∨ s.active ≠ s.contexts.length) : serveRequest r s = .refused (.noSuchContext s.active) := by
  cases r with
  | new =>
    have hplace : s.active ≠ s.contexts.length := hr.resolve_left (· rfl)
    simp only [serveRequest, requestNew, h, if_neg hplace]
  | execute bytes => exact (requestExecute_eq_onStack bytes s).trans (onStack_of_no_context _ h)
  | _ => exact onStack_of_no_context _ h

theorem roomForContext_iff {cfg : Config} {cs : List Context} :
    roomForContext cfg cs = true ↔ ∀ N, cfg.nContexts = some N → liveCount cs < N := by
  refine ⟨fun h N hN => liveCount_lt_of_room h hN, fun h => ?_⟩
  cases hN : cfg.nContexts with
  | none => simp [roomForContext, hN]
  | some N => simpa [roomForContext, hN] using h N hN

/-- A step with a request next serves it, whether or not its context exists. -/
theorem step_eq_serveRequest {s : State} {c : Nat} {r : Request} {rest : List HostMove}
    (hc : configOk s.config = true) (hp : s.pending = .request c r :: rest) :
    step s = serveRequest r (s.accept c rest) := by
  simp only [step, serveNext, hc, if_true, hp]

/-- `new()` at the next free place without room. -/
theorem step_newContext_without_room {s : State} {rest : List HostMove} (hc : configOk s.config = true)
    (hp : s.pending = .request s.contexts.length .new :: rest)
    (hroom : ¬ roomForContext s.config s.contexts = true) : step s = .refused .tooManyContexts := by
  rw [step_eq_serveRequest hc hp]
  simp [serveRequest, requestNew, hroom]

/-! ### One call of the reference driver -/

/-- A call that succeeds answers the Delta of a width and adds on top of the stack. -/
theorem execute_done {cfg : Config} {P : List Byte} {S T : Stack} {v : Value} (h : execute cfg P S = .done T v) :
    (∃ w : Width, v = .delta ⟨minLen w, w.bytes⟩) ∧ S <+: T := by
  cases hd : decode cfg P with
  | error e =>
    rw [execute_of_decode_error hd] at h
    cases h
  | ok i =>
    rw [execute_of_decode_ok hd, executeInstr_eq_dispatchOp] at h
    rcases dispatchOp_cases cfg.stackCapacity .add i.width (minLen i.width) i.addend1 i.addend2 S with
      ⟨-, e⟩ | ⟨-, -, e⟩ | ⟨-, -, e⟩ <;> rw [e] at h <;> cases h
    exact ⟨⟨i.width, rfl⟩, List.prefix_append _ _⟩

section
variable {cfg : Config} {P : List Byte} {S T : Stack}

theorem runCalls_nil (n : Nat) : runCalls cfg n [] S = some ⟨.done, [], S⟩ := by
  cases n <;> rfl

theorem runCalls_of_error {n : Nat} {e : Error} (hn : 0 < n) (hP : P ≠ []) (h : execute cfg P S = .error e) :
    runCalls cfg n P S = some ⟨.error e, P, S⟩ := by
  obtain ⟨n, rfl⟩ := Nat.exists_eq_succ_of_ne_zero hn.ne'
  obtain ⟨b, P, rfl⟩ := List.exists_cons_of_ne_nil hP
  simp only [runCalls, h]

theorem runCalls_of_capacityFault {n : Nat} (hn : 0 < n) (hP : P ≠ []) (h : execute cfg P S = .capacityFault) :
    runCalls cfg n P S = some ⟨.capacityFault, P, S⟩ := by
  obtain ⟨n, rfl⟩ := Nat.exists_eq_succ_of_ne_zero hn.ne'
  obtain ⟨b, P, rfl⟩ := List.exists_cons_of_ne_nil hP
  simp only [runCalls, h]

theorem runCalls_of_done {n : Nat} {d : Delta} (hn : 0 < n) (hP : P ≠ []) (h : execute cfg P S = .done T (.delta d)) :
    runCalls cfg n P S = runCalls cfg (n - 1) (P.drop d.instBytesConsumed) T := by
  obtain ⟨n, rfl⟩ := Nat.exists_eq_succ_of_ne_zero hn.ne'
  obtain ⟨b, P, rfl⟩ := List.exists_cons_of_ne_nil hP
  simp only [runCalls, h, Nat.succ_sub_one]

end

/-! ### The loop of the reference driver -/

/-- An instruction's bytes consumed leave fewer bytes. -/
theorem length_drop_minLen_lt {P : List Byte} (hP : P ≠ []) (w : Width) : (P.drop (minLen w)).length < P.length := by
  have hw := two_le_minLen w
  have hpos := List.length_pos_iff.mpr hP
  rw [List.length_drop]
  omega

/-- Induction along the calls of a run: each call that succeeds leaves fewer bytes for the calls after it. -/
theorem driver_induction {cfg : Config} {motive : List Byte → Stack → Prop}
    (nil : ∀ S, motive [] S)
    (error : ∀ P S e, P ≠ [] → execute cfg P S = .error e → motive P S)
    (capacityFault : ∀ P S, P ≠ [] → execute cfg P S = .capacityFault → motive P S)
    (done : ∀ P S T w, P ≠ [] → execute cfg P S = .done T (.delta ⟨minLen w, w.bytes⟩) →
      motive (P.drop (minLen w)) T → motive P S)
    (P : List Byte) (S : Stack) : motive P S := by
  induction hn : P.length using Nat.strong_induction_on generalizing P S with
  | _ n ih =>
    by_cases hP : P = []
    · exact hP ▸ nil S
    · cases hx : execute cfg P S with
      | error e => exact error P S e hP hx
      | capacityFault => exact capacityFault P S hP hx
      | done T v =>
        obtain ⟨⟨w, rfl⟩, -⟩ := execute_done hx
        exact done P S T w hP hx (ih _ (hn ▸ length_drop_minLen_lt hP w) _ T rfl)

/-- As many calls as there are bytes always suffice, so more of them change nothing. -/
theorem runCalls_eq_run {cfg : Config} (P : List Byte) (S : Stack) :
    ∀ n, P.length ≤ n → runCalls cfg n P S = run cfg P S := by
  induction P, S using driver_induction (cfg := cfg) with
  | nil S => exact fun n _ => (runCalls_nil n).trans (runCalls_nil 0).symm
  | error P S e hP hx =>
    intro n hn
    have hpos := List.length_pos_iff.mpr hP
    rw [run, runCalls_of_error (hpos.trans_le hn) hP hx, runCalls_of_error hpos hP hx]
  | capacityFault P S hP hx =>
    intro n hn
    have hpos := List.length_pos_iff.mpr hP
    rw [run, runCalls_of_capacityFault (hpos.trans_le hn) hP hx, runCalls_of_capacityFault hpos hP hx]
  | done P S T w hP hx ih =>
    intro n hn
    have hpos := List.length_pos_iff.mpr hP
    have hfewer := Nat.le_sub_one_of_lt (length_drop_minLen_lt hP w)
    rw [run, runCalls_of_done (hpos.trans_le hn) hP hx, runCalls_of_done hpos hP hx, ih _ hfewer,
      ih _ (hfewer.trans (Nat.sub_le_sub_right hn 1))]

/-- After a call that succeeded the run goes on with the bytes after those consumed. -/
theorem run_of_done {cfg : Config} {P : List Byte} {S T : Stack} {d : Delta} (hP : P ≠ [])
    (h : execute cfg P S = .done T (.delta d)) : run cfg P S = run cfg (P.drop d.instBytesConsumed) T := by
  obtain ⟨⟨w, ⟨⟩⟩, -⟩ := execute_done h
  rw [run, runCalls_of_done (List.length_pos_iff.mpr hP) hP h]
  exact runCalls_eq_run _ T _ (Nat.le_sub_one_of_lt (length_drop_minLen_lt hP w))

end Sys2Proof.Machine

open Sys2Proof Sys2Proof.Machine

/-- Settles O45, by the three ends of the request's stack function. -/
theorem everyRequestEnds : Obligations.EveryRequestEnds := by
  intro s c S r rest h
  cases hx : requestOp s.config r S with
  | done T v => exact ⟨_, step_of_done h hx, rfl, .inl ⟨.value v, rfl, rfl⟩⟩
  | error e => exact ⟨_, step_of_error h hx, rfl, .inl ⟨.error e, rfl, rfl⟩⟩
  | capacityFault =>
    exact ⟨_, step_of_capacityFault h hx, rfl, .inr ⟨ne_none_of_requestOp_capacityFault hx, rfl⟩⟩

/-- Settles O46: the request is one of an existing context, as the `new()` that begins one replies with a value, and
only the error end of its stack function replies with an error. -/
theorem failureLeavesEveryStack : Obligations.FailureLeavesEveryStack := by
  intro s t c r rest e hp ht hreplies
  obtain ⟨hc, ⟨hq, -⟩ | ⟨c', r', rest', S, hq, hS, -⟩ | ⟨rest', -, -, rfl⟩ | ⟨c', rest', S, hq, -, -⟩ |
    ⟨rest', hq, -⟩⟩ := step_next ht
  · cases hp.symm.trans hq
  · cases hp.symm.trans hq
    have hserves : s.Serves c S r rest := ⟨hc, hS, hp⟩
    rw [step_request_replies hserves ht] at hreplies
    rw [step_of_error hserves (Result.eq_error_of_replies hreplies)] at ht
    exact (Host.Outcome.next.inj ht).symm
  · simp at hreplies
  · cases hp.symm.trans hq
  · cases hp.symm.trans hq

/-- Settles O58: each end of the first call is an equation of `runCalls`, and the number of calls allowed does not
matter. -/
theorem driverIsTheLoop : Obligations.DriverIsTheLoop := by
  intro cfg P S
  refine ⟨runCalls_nil _, fun hP => ?_⟩
  have hpos := List.length_pos_iff.mpr hP
  exact ⟨fun _ => runCalls_of_error hpos hP, runCalls_of_capacityFault hpos hP, fun _ _ => run_of_done hP⟩

/-- Settles O59, by induction along the calls of the run. -/
theorem driverRunEnds : Obligations.DriverRunEnds := by
  intro cfg P S
  induction P, S using driver_induction (cfg := cfg) with
  | nil S => exact ⟨_, runCalls_nil _, List.prefix_rfl, List.suffix_rfl, fun _ => rfl, nofun, nofun⟩
  | error P S e hP hx =>
    refine ⟨_, runCalls_of_error (List.length_pos_iff.mpr hP) hP hx, List.prefix_rfl, List.suffix_rfl, nofun, ?_, nofun⟩
    rintro e' ⟨⟩
    exact ⟨hP, hx⟩
  | capacityFault P S hP hx =>
    exact ⟨_, runCalls_of_capacityFault (List.length_pos_iff.mpr hP) hP hx, List.prefix_rfl, List.suffix_rfl, nofun,
      nofun, fun _ => ne_none_of_requestOp_capacityFault (r := .execute P) hx⟩
  | done P S T w hP hx ih =>
    obtain ⟨x, hrun, hstack, hrest, hend⟩ := ih
    obtain ⟨-, hpushed⟩ := execute_done hx
    exact ⟨x, (run_of_done hP hx).trans hrun, hpushed.trans hstack, hrest.trans (List.drop_suffix _ _), hend⟩

/-- Settles O56: the three ends of a request in a context that has not begun. -/
theorem newBeginsTheNextContext : Obligations.NewBeginsTheNextContext := by
  intro s c rest hc
  refine ⟨fun hp hroom => step_newContext hc hp (roomForContext_iff.mpr hroom), fun N hp hN hfull => ?_,
    fun r hout hp hr => ?_⟩
  · exact step_newContext_without_room hc hp fun hroom => Nat.not_lt.mpr hfull (roomForContext_iff.mp hroom N hN)
  · rw [step_eq_serveRequest hc hp]
    exact serveRequest_of_no_context (s := s.accept c rest) (List.getElem?_eq_none hout) hr

end

section
/-! PROOF. The statements of spec/70_reset_and_hazards.md: the reset (R140), a context that has ended (R143), a pop
right after an `execute` (R144), and a queue of requests served to its end (R148, 60_exceptions.md R129). -/

namespace Sys2Proof.Machine

/-! ### A call of `execute` whose sum fits -/

/-- A call with exactly the bytes of a present instruction whose sum fits pushes that sum, where there is room. -/
theorem requestOp_execute_encode {cfg : Config} {i : Instr} {S : Stack} (hc : configOk cfg = true)
    (hi : i.width ∈ cfg.widths) (hsum : i.addend1 + i.addend2 ≤ i.width.maxValue)
    (hroom : ∀ N, cfg.stackCapacity = some N → S.length + i.width.bytes ≤ N) :
    requestOp cfg (.execute (encode cfg i)) S =
      .done (S ++ bytesBe i.width.bytes (i.addend1 + i.addend2)) (.delta ⟨minLen i.width, i.width.bytes⟩) := by
  have hdecode := decode_encode_append [] hc hi
  rw [List.append_nil] at hdecode
  rw [requestOp, execute_of_decode_ok hdecode, executeInstr_of_room hsum hroom]

/-- Such a call and then a request that takes the sum off the stack again: only the replies to both are new. -/
theorem core_run_execute_restoring {s : State} {c : Nat} {S : Stack} {rest : List HostMove} {i : Instr} {q : Request}
    {v : Value} (h : s.Serves c S (.execute (encode s.config i)) (.request c q :: rest))
    (hcap : s.config.stackCapacity = none) (hi : i.width ∈ s.config.widths)
    (hsum : i.addend1 + i.addend2 ≤ i.width.maxValue)
    (hq : requestOp s.config q (S ++ bytesBe i.width.bytes (i.addend1 + i.addend2)) = .done S v) :
    core.run 2 s = .next { s with
      pending := rest, active := c
      replies := (c, .value v) :: (c, .value (.delta ⟨minLen i.width, i.width.bytes⟩)) :: s.replies } :=
  core_run_two_restoring h (requestOp_execute_encode h.config hi hsum (room_of_unbounded hcap _)) hq

/-! ### A context that has ended -/

theorem onStack_of_ended {s : State} (op : Stack → Result) (h : s.contexts[s.active]? = some .ended) :
    s.onStack op = .fault (.contextEnded s.active) := by
  simp only [State.onStack, h]

/-- No request of an ended context has a step, `new()` included. -/
theorem serveRequest_of_ended {s : State} (r : Request) (h : s.contexts[s.active]? = some .ended) :
    serveRequest r s = .fault (.contextEnded s.active) := by
  cases r with
  | new => simp only [serveRequest, requestNew, h]
  | execute bytes => exact (requestExecute_eq_onStack bytes s).trans (onStack_of_ended _ h)
  | _ => exact onStack_of_ended _ h

/-- A context ends only once. -/
theorem step_endContext_of_ended {s : State} {c : Nat} {rest : List HostMove} (hc : configOk s.config = true)
    (hp : s.pending = .endContext c :: rest) (h : s.contexts[c]? = some .ended) :
    step s = .fault (.contextEnded c) := by
  simp only [step, serveNext, hc, if_true, hp, endContext, h]

/-! ### A queue of requests -/

section
variable {s t : State} {c : Nat} {S : Stack} {r : Request} {rest : List HostMove}

/-- A request of an existing context begins no context and ends none. -/
theorem step_request_isLive (h : s.Serves c S r rest) (ht : step s = .next t) (d : Nat) :
    s.isLive d ↔ t.isLive d := by
  by_cases hd : d = c
  · subst hd
    exact ⟨fun _ => ⟨_, step_request_owner h ht⟩, fun _ => ⟨S, h.context⟩⟩
  · simp only [State.isLive, step_request_other h ht hd]

/-- The host duty on the queue holds of what is left of it. -/
theorem step_request_onlyLiveRequests (h : s.Serves c S r rest) (ht : step s = .next t)
    (hlive : s.onlyLiveRequests) : t.onlyLiveRequests := by
  intro m hm
  rw [step_request_pending h ht] at hm
  obtain ⟨d, q, hmove, hd⟩ := hlive m (h.pending ▸ List.mem_cons_of_mem _ hm)
  exact ⟨d, q, hmove, (step_request_isLive h ht d).mp hd⟩

/-- Where the host keeps its duty, the first move of the queue is served as a request of an existing context. -/
theorem serves_of_onlyLiveRequests {m : HostMove} (hc : configOk s.config = true) (hlive : s.onlyLiveRequests)
    (hp : s.pending = m :: rest) : ∃ c S r, s.Serves c S r rest := by
  obtain ⟨c, r, rfl, S, hS⟩ := hlive m (hp ▸ List.mem_cons_self)
  exact ⟨c, S, r, hc, hS, hp⟩

end

end Sys2Proof.Machine

open Sys2Proof Sys2Proof.Machine

/-- Settles O49, by induction on the queue: one step serves its first request and keeps what the rest of it needs. -/
theorem everyQueuedRequestIsServed : Obligations.EveryQueuedRequestIsServed := by
  intro s hc hlive
  induction hp : s.pending generalizing s with
  | nil => exact ⟨s, rfl, hp, fun _ => Iff.rfl⟩
  | cons m rest ih =>
    obtain ⟨c, S, r, hserves⟩ := serves_of_onlyLiveRequests hc hlive hp
    have hstep := step_request hserves
    obtain ⟨t, hrun, hempty, hsame⟩ := ih _ ((step_config hstep).symm ▸ hc)
      (step_request_onlyLiveRequests hserves hstep hlive) (step_request_pending hserves hstep)
    exact ⟨t, (core_run_succ hstep).trans hrun, hempty,
      fun d => (step_request_isLive hserves hstep d).trans (hsame d)⟩

/-- Settles O44: `execute` appends the bytes of the sum, from which the pop of its width reads the sum again. -/
theorem popAfterExecuteReturnsTheSum : Obligations.PopAfterExecuteReturnsTheSum := by
  intro s c S rest hcap
  refine ⟨fun a b h hsum => ?_, fun a b hw h hsum => ?_, fun a b hw h hsum => ?_⟩ <;> rw [BitVec.add_def]
  · exact core_run_execute_restoring (i := .add8 a b) h hcap (configOk_w8_mem h.config) hsum
      (requestOp_pop8_append_bytesBe ..)
  · exact core_run_execute_restoring (i := .add16 a b) h hcap hw hsum (requestOp_pop16_append_bytesBe ..)
  · exact core_run_execute_restoring (i := .add32 a b) h hcap hw hsum (requestOp_pop32_append_bytesBe ..)

/-- Settles O54: the step is `resetBlock`, which maps each place of the list of contexts by itself. -/
theorem resetEmptiesEveryStack : Obligations.ResetEmptiesEveryStack := by
  intro s rest hc hp
  refine ⟨_, step_reset hc hp, rfl, rfl, rfl, rfl, List.length_map _, fun c S hS => ?_, fun c hended => ?_⟩
  · rw [resetBlock_contexts, List.getElem?_map, hS]
    rfl
  · rw [resetBlock_contexts, List.getElem?_map, hended]
    rfl

/-- Settles O55: an existing context ends, and an ended one has no step for a request or for a second end. -/
theorem endedContextHasNoStep : Obligations.EndedContextHasNoStep := by
  intro s c rest hc
  refine ⟨fun S hS hp => step_endContext hc hp hS, fun r hended hp => ?_,
    fun hended hp => step_endContext_of_ended hc hp hended⟩
  rw [step_eq_serveRequest hc hp]
  exact serveRequest_of_ended (s := s.accept c rest) r hended

end
